-- ==== Sys2Proof/Word.lean ====
section
/-! DEFINITION. The bit vectors of the engine (00_scope.md R5, R6). All of them are unsigned (R6). -/

namespace Sys2Proof

/-- A word: 64 bits, bit 0 the least significant (R6). -/
abbrev Word := BitVec 64

/-- A byte: a cell of the block buffer, a command's operand, a register number, a read value. -/
abbrev Byte := BitVec 8

/-- A command word: one 16-bit integer (30_encoding.md R71). -/
abbrev CmdWord := BitVec 16

end Sys2Proof
end

