-- ==== Sys2Proof/Syntax.lean ====
section
/-! DEFINITION. One constructor per row of spec/opcode_table.json: three commands, the illegal space, three pseudo-instructions and
three internal operations. -/

namespace Sys2Proof

/-- The rows of the opcode table, with the operands the spec gives each. -/
inductive Instr where
  /-- CONSTRUCT (40_construct.md R101): `arg` is the requested output size, any 8-bit value. -/
  | construct (arg : Byte)
  /-- ABSORB (41_update.md R110): `arg` is the next message byte. -/
  | absorb (arg : Byte)
  /-- FINALIZE (42_finalize.md R120): no operand. -/
  | finalize
  /-- ILLEGAL (30_encoding.md R75): the command word itself, one of the 65023 that are no command. -/
  | illegal (w : CmdWord)
  /-- UPDATE (41_update.md R111), a pseudo-instruction: a span of any length. -/
  | update (span : List Byte)
  /-- HASH (44_hash_oneshot.md R160), a pseudo-instruction: output size and message. -/
  | hash (outputSize : Byte) (input : List Byte)
  /-- READDIGEST (30_encoding.md R81), a pseudo-instruction on the read port. -/
  | readDigest
  /-- COMPRESS (43_compress.md R130), internal. -/
  | compress
  /-- ROUND (43_compress.md R135), internal: the round number 0..11. -/
  | round (r : Fin 12)
  /-- G (43_compress.md R137), internal: four indices into `v` and two message words. -/
  | g (a b c d : Fin 16) (x y : Word)
  deriving DecidableEq, Repr

end Sys2Proof
end

