-- ==== Sys2Proof/WellFormed.lean ====
section
/-! DEFINITION. Which terms of `Instr` the spec has: an ILLEGAL row holds a word that no command row matches (30_encoding.md R75), and
G's four indices are distinct (43_compress.md R137). The other operands' ranges are their types. -/

namespace Sys2Proof

/-- R72's match and mask columns: `w` is matched by none of the three command rows. -/
def isIllegalWord (w : CmdWord) : Bool :=
  !(w &&& 0xFF00#16 == 0x0100#16) && !(w &&& 0xFF00#16 == 0x0200#16) && !(w &&& 0xFFFF#16 == 0x0300#16)

/-- "four distinct indices into `v`" (R137). -/
def indicesDistinct (a b c d : Fin 16) : Bool :=
  a != b && a != c && a != d && b != c && b != d && c != d

/-- The well-formed terms. -/
def Instr.wf : Instr → Bool
  | .construct _ => true
  | .absorb _ => true
  | .finalize => true
  | .illegal w => isIllegalWord w
  | .update _ => true
  | .hash _ _ => true
  | .readDigest => true
  | .compress => true
  | .round _ => true
  | .g a b c d _ _ => indicesDistinct a b c d

end Sys2Proof
end

