-- ==== Sys2Proof/Decode.lean ====
section
/-! DEFINITION. The decoder of 30_encoding.md R79, total on 16-bit words, and the encoder of R72 and R80. -/

namespace Sys2Proof

/-- `op = w[15:8]` (R71). -/
def opField (w : CmdWord) : Byte := w.extractLsb' 8 8

/-- `arg = w[7:0]` (R71). -/
def argField (w : CmdWord) : Byte := w.extractLsb' 0 8

/-- R79. A word that is no command is not passed to a neighbour: it decodes to ILLEGAL. -/
def decode (w : CmdWord) : Instr :=
  if opField w = 0x01 then .construct (argField w)
  else if opField w = 0x02 then .absorb (argField w)
  else if opField w = 0x03 ∧ argField w = 0x00 then .finalize
  else .illegal w

/-- The word `op || arg` (R71; `||` is concatenation with the first operand in the high bits, 00_scope.md R6). -/
def commandWord (op arg : Byte) : CmdWord := op ++ arg

/-- The word of an instruction (R72, R80; `.word x` for an illegal word), and `none` for a row with no encoding of its own (R81, R130). -/
def encode : Instr → Option CmdWord
  | .construct arg => some (commandWord 0x01 arg)
  | .absorb arg => some (commandWord 0x02 arg)
  | .finalize => some (commandWord 0x03 0x00)
  | .illegal w => some w
  | .update _ => none
  | .hash _ _ => none
  | .readDigest => none
  | .compress => none
  | .round _ => none
  | .g _ _ _ _ _ _ => none

/-- A table word of `nbits` bits as the 16-bit command word, the bits above `nbits` being 0 (log 8). -/
def tableWord (nbits w : Nat) : CmdWord := BitVec.ofNat 16 (w % 2 ^ nbits)

/-- What the decoder reads from a table word. There is one instruction length, 16 bits (R71, R77): a longer word is none (log 8). -/
def decodeTableWord (nbits w : Nat) : Option Instr :=
  if nbits ≤ 16 then some (decode (tableWord nbits w)) else none

end Sys2Proof
end

