-- ==== Sys2Proof/Machine/State.lean ====
section
/-! DEFINITION. The state of one engine (10_state.md R20), the model's own fields beside it, the ways a step can stop, and reset. -/

namespace Sys2Proof.Machine

/-- The lifecycle register `phase` (10_state.md R31). The value 3 is unreachable and has no constructor (log 6). -/
inductive Phase where
  | idle | active | done
  deriving DecidableEq, Repr

/-- R31's encodings. -/
def Phase.bits : Phase → BitVec 2
  | .idle => 0
  | .active => 1
  | .done => 2

/-- The response codes of 30_encoding.md R78, which are also the values of `err` (10_state.md R32; there `ok` is "none").
"A model may use a 5-constructor type" (93_implementation_defined.md U6; log 6). -/
inductive Code where
  | ok | badOutputSize | alreadyFinalized | notConstructed | illegalCommand
  deriving DecidableEq, Repr

/-- R78's numbers. -/
def Code.bits : Code → BitVec 3
  | .ok => 0
  | .badOutputSize => 1
  | .alreadyFinalized => 2
  | .notConstructed => 3
  | .illegalCommand => 4

/-- The block buffer: (address, byte) pairs, addresses strictly rising and below 128, no byte 0x00. An address not listed reads
0x00, the reset contents of every byte (10_state.md R39; log 7). -/
abbrev Buffer := List Host.Cell

/-- One engine instance: the HashState's six attributes and the two control registers (10_state.md R20). -/
structure Engine where
  /-- R21. -/
  chain : Vector Word 8
  /-- The low word of the byte count (R25). -/
  counter0 : Word
  /-- The high word of the byte count (R25). -/
  counter1 : Word
  /-- The low word of the flag (R26). -/
  finalizationFlags0 : Word
  /-- The high word of the flag (R26). -/
  finalizationFlags1 : Word
  /-- R28. -/
  buffer : Buffer
  /-- R29. -/
  bufferLength : BitVec 8
  /-- R30. -/
  outputSize : BitVec 7
  /-- R31. -/
  phase : Phase
  /-- R32. -/
  err : Code
  deriving DecidableEq, Repr

/-- The transient registers of COMPRESS: `v[0..15]` (10_state.md R23) and `m[0..15]` (R24). -/
structure Work where
  v : Vector Word 16
  m : Vector Word 16
  deriving DecidableEq, Repr

/-- What the host can do to an engine (30_encoding.md R70; 70_reset_and_hazards.md R200). -/
inductive HostAction where
  /-- `Cmd(w)`. -/
  | cmd (w : CmdWord)
  /-- `RegRead(n)`. -/
  | regRead (n : Byte)
  /-- Reset, "a step of its own" (R202). -/
  | reset
  deriving DecidableEq, Repr

/-- What a port answers (R70). -/
inductive PortOutput where
  /-- The response of a `Cmd`. -/
  | response (code : Code)
  /-- The value of a `RegRead`. -/
  | value (val : Byte)
  deriving DecidableEq, Repr

/-- The engine; the transient registers that ROUND and G act on as instructions of their own (COMPRESS has its own copy, "a local
variable of COMPRESS", R23; log 3); and two fields of the model's own: the host actions still to come, oldest first (log 1), and the
answers given, newest first (log 2). -/
structure State where
  engine : Engine
  work : Work
  pending : List HostAction
  outputs : List PortOutput
  deriving DecidableEq, Repr

/-- How a step can stop with a fault. No state that keeps 10_state.md R36 does so. -/
inductive Fault where
  /-- Raised by ABSORB (and so UPDATE) when `bufferLength` is 129..255: `MemWrite` requires `addr + n <= 128` (20_memory.md R53).
  Safe: the spec gives no effect there (log 5). -/
  | bufferAddressOutOfRange
  deriving DecidableEq, Repr

/-- The refusals: none beside the host's own for an instruction without a meaning, and every instruction has its meaning. -/
inductive Refusal where
  /-- Raised by an arm of `exec` that has no meaning yet (there is none). Safe. -/
  | notModelled (mnemonic : String)
  deriving DecidableEq, Repr

/-- An engine after reset: the table of 10_state.md R39. -/
def Engine.reset : Engine where
  chain := Vector.replicate 8 0
  counter0 := 0
  counter1 := 0
  finalizationFlags0 := 0
  finalizationFlags1 := 0
  buffer := []
  bufferLength := 0
  outputSize := 0
  phase := .idle
  err := .ok

/-- The transient registers after reset. R39 gives them no value; zero is the model's (log 3). -/
def Work.reset : Work where
  v := Vector.replicate 16 0
  m := Vector.replicate 16 0

/-- The machine right after reset: R39; nothing pending and nothing answered (log 1 to log 3). -/
def State.reset : State where
  engine := Engine.reset
  work := Work.reset
  pending := []
  outputs := []

end Sys2Proof.Machine
end

