-- ==== Sys2Proof/Machine/Flags.lean ====
section
/-! DEFINITION. The status-like computations. The engine has no arithmetic condition codes (43_compress.md R137, R143): what it has is
the carry inside the counter (10_state.md R27), the finalization flag (R26), the sticky `err` (R32) and STATUS (R33). -/

namespace Sys2Proof.Machine

/-- The carry of `lo = x + k`: "`lo < k` exactly when the 64-bit add wrapped" (R27). -/
def carryOut (lo k : Word) : Word := if lo < k then 1 else 0

/-- "Advance the counter by `k`" (R27). -/
def Engine.advanceCounter (k : BitVec 8) (e : Engine) : Engine :=
  let lo := e.counter0 + k.setWidth 64
  { e with counter0 := lo, counter1 := e.counter1 + carryOut lo (k.setWidth 64) }

/-- The low flag word to all-ones; the high word is not written (42_finalize.md R120, R123). -/
def Engine.setFinalFlag (e : Engine) : Engine :=
  { e with finalizationFlags0 := 0xFFFFFFFFFFFFFFFF }

/-- `err` latches the first rejection only (60_exceptions.md R177). -/
def Engine.latchErr (code : Code) (e : Engine) : Engine :=
  if e.err = .ok then { e with err := code } else e

/-- STATUS (10_state.md R33): bits `[7:5]` zero, ERR in `[4:2]`, PHASE in `[1:0]`. -/
def Engine.status (e : Engine) : Byte := 0#3 ++ e.err.bits ++ e.phase.bits

end Sys2Proof.Machine
end

