-- ==== Sys2Proof/Machine/Operands.lean ====
section
/-! DEFINITION. The operand forms: the parameter word of CONSTRUCT (30_encoding.md R73, R74), the byte of a word (00_scope.md R6), and
the three addressing modes, none with a host-supplied address (20_memory.md R65). -/

namespace Sys2Proof.Machine

/-- The legal operands of CONSTRUCT: 1..64, compared unsigned (R73; 40_construct.md R101). -/
def outputSizeLegal (arg : Byte) : Bool := 1 ≤ arg.toNat && arg.toNat ≤ 64

/-- The parameter word `P` (R74). -/
def parameterWord (arg : Byte) : Word := 0x0000000001010000 ||| arg.setWidth 64

/-- Byte `k` of a word: `x[8k+7:8k]` (00_scope.md R6). -/
def wordByte (x : Word) (k : Nat) : Byte := x.extractLsb' (8 * k) 8

/-- R65 (a), append: ABSORB stores at `bufferLength`. -/
def Engine.appendAddress (e : Engine) : Nat := e.bufferLength.toNat

/-- R65 (b), fill: FINALIZE stores at every address from `bufferLength` to 127; none when `bufferLength` is 128 or more
(00_scope.md R8, `for`). -/
def Engine.fillAddresses (e : Engine) : List Nat :=
  List.range' e.bufferLength.toNat (128 - e.bufferLength.toNat)

/-- R65 (c), word read: message word `i` is at address `8i`. -/
def wordAddress (i : Nat) : Nat := 8 * i

end Sys2Proof.Machine
end

