-- ==== Sys2Proof/Machine/Ops.lean ====
section
/-! DEFINITION. The shared operations: rotation, the block buffer and its two access primitives, the response of a command, the
rejection of a command (the engine's only exception; there is no return from one, 60_exceptions.md R179), the read port, reset. -/

namespace Sys2Proof.Machine

/-- Right rotation of a word (00_scope.md R7). -/
def rotr64 (x : Word) (n : Nat) : Word := (x >>> n) ||| (x <<< (64 - n))

/-! ## The block buffer (20_memory.md) -/

/-- The byte at an address; an unlisted address reads 0x00 (log 7). -/
def Buffer.get : Buffer → Nat → Byte
  | [], _ => 0
  | (k, c) :: rest, a => if a = k then c else Buffer.get rest a

/-- Writing one byte, keeping the canonical form: writing 0x00 removes the entry. -/
def Buffer.put : Buffer → Nat → Byte → Buffer
  | [], a, b => if b = 0 then [] else [(a, b)]
  | (k, c) :: rest, a, b =>
    if a < k then (if b = 0 then (k, c) :: rest else (a, b) :: (k, c) :: rest)
    else if a = k then (if b = 0 then rest else (k, b) :: rest)
    else (k, c) :: Buffer.put rest a b

/-- The canonical form, from a least admissible address on. -/
def Buffer.wfFrom : Nat → Buffer → Bool
  | _, [] => true
  | lo, (k, c) :: rest => decide (lo ≤ k) && decide (k < 128) && decide (c ≠ 0) && Buffer.wfFrom (k + 1) rest

/-- The canonical form of the block buffer: addresses strictly rising and in 0..127 (R50), no entry 0x00. -/
def Buffer.wf (m : Buffer) : Bool := Buffer.wfFrom 0 m

/-- `buffer[addr] + buffer[addr+1] * 2^8 + ...`, `n` bytes, the lowest address least significant (R52). -/
def Buffer.readLE (m : Buffer) (addr : Nat) : Nat → Nat
  | 0 => 0
  | n + 1 => (m.get addr).toNat + 2 ^ 8 * Buffer.readLE m (addr + 1) n

/-- `n` bytes stored from `addr` up, the least significant first (R53). -/
def Buffer.writeLE (m : Buffer) (addr : Nat) : Nat → Nat → Buffer
  | 0, _ => m
  | n + 1, v => Buffer.writeLE (m.put addr (BitVec.ofNat 8 v)) (addr + 1) n (v / 2 ^ 8)

/-- `MemRead(addr, n)` (R52): `none` outside `addr + n <= 128`. -/
def memRead (m : Buffer) (addr n : Nat) : Option (BitVec (8 * n)) :=
  if addr + n ≤ 128 then some (BitVec.ofNat (8 * n) (m.readLE addr n)) else none

/-- `MemWrite(addr, n, v)` (R53): `none` outside `addr + n <= 128`. -/
def memWrite (m : Buffer) (addr n : Nat) (v : BitVec (8 * n)) : Option Buffer :=
  if addr + n ≤ 128 then some (m.writeLE addr n v.toNat) else none

/-- Message word `i`: `MemRead(8*i, 8)` (R54), always in range (R55). -/
def messageWord (m : Buffer) (i : Fin 16) : Word := BitVec.ofNat 64 (m.readLE (wordAddress i) 8)

/-- The fill of FINALIZE: 0x00 at every fill address (R65 (b)). -/
def Engine.pad (e : Engine) : Engine :=
  { e with buffer := e.fillAddresses.foldl (fun m a => m.put a 0x00) e.buffer }

/-! ## Accepting and rejecting a command (60_exceptions.md) -/

/-- The response of a `Cmd` (30_encoding.md R70, R78). -/
def State.respond (code : Code) (s : State) : State :=
  { s with outputs := .response code :: s.outputs }

/-- An accepted command: the engine it leaves, and `respond OK` (00_scope.md R8). -/
def State.accept (e : Engine) (s : State) : State := { s with engine := e }.respond .ok

/-- Rejection entry, `raise Reject(code)` (R176): `err` latches, the response is the code, nothing else changes. -/
def State.reject (code : Code) (s : State) : State := { s with engine := s.engine.latchErr code }.respond code

/-- The phase check of ABSORB and FINALIZE (R173, R174, R178). -/
def phaseCheck : Phase → Option Code
  | .idle => some .notConstructed
  | .active => none
  | .done => some .alreadyFinalized

/-- The newest answer, if it is a response: what HASH tests (44_hash_oneshot.md R160). -/
def State.lastResponse (s : State) : Option Code :=
  match s.outputs with
  | .response code :: _ => some code
  | _ => none

/-! ## The read port (10_state.md) -/

/-- Digest byte `j` (42_finalize.md R124): byte `j mod 8` of `chain[j div 8]`. -/
def chainByte (chain : Vector Word 8) (j : Fin 64) : Byte := wordByte (chain[j.val / 8]'(by omega)) (j.val % 8)

/-- Window register `0x40 + j` (R34). -/
def Engine.digestRegister (e : Engine) (j : Fin 64) : Byte :=
  if e.phase = .done ∧ j.val < e.outputSize.toNat then chainByte e.chain j else 0x00

/-- `RegRead(n)` (R33 to R35). -/
def Engine.regRead (e : Engine) (n : Byte) : Byte :=
  if n = 0x00 then e.status
  else if h : 0x40 ≤ n.toNat ∧ n.toNat ≤ 0x7F then e.digestRegister ⟨n.toNat - 0x40, by omega⟩
  else 0x00

/-- A read through the port: its value is answered and nothing else changes (20_memory.md R57). -/
def State.readRegister (n : Byte) (s : State) : State :=
  { s with outputs := .value (s.engine.regRead n) :: s.outputs }

/-- Reads of the first `n` window registers, 0x40 first (30_encoding.md R81; log 4 on the order). -/
def State.readWindow : Nat → State → State
  | 0, s => s
  | n + 1, s => (State.readWindow n s).readRegister (BitVec.ofNat 8 (0x40 + n))

/-! ## Reset (70_reset_and_hazards.md) -/

/-- Reset as the host applies it (R200, R202): the engine to R39, `v` and `m` to their reset value (log 3); what the host has still to
issue and what it has been answered are its own (log 11). -/
def State.resetEngine (s : State) : State := { s with engine := Engine.reset, work := Work.reset }

/-! ## Sequencing -/

/-- The second part runs on the state the first leaves; a stop of the first is the whole's. -/
def andThen (o : Host.Outcome State Fault Refusal) (f : State → Host.Outcome State Fault Refusal) :
    Host.Outcome State Fault Refusal :=
  match o with
  | .next s => f s
  | .fault r => .fault r
  | .refused r => .refused r

end Sys2Proof.Machine
end

