-- ==== Sys2Proof/Machine/Tables.lean ====
section
/-! DEFINITION. The two constant tables (43_compress.md R131, R132) and the G schedule (R135, R136). The spec marks the values
"from general knowledge, not in source" (log 9). -/

namespace Sys2Proof.Machine

/-- R131. -/
def iv : Vector Word 8 :=
  #v[0x6a09e667f3bcc908, 0xbb67ae8584caa73b, 0x3c6ef372fe94f82b, 0xa54ff53a5f1d36f1,
     0x510e527fade682d1, 0x9b05688c2b3e6c1f, 0x1f83d9abfb41bd6b, 0x5be0cd19137e2179]

/-- A row of SIGMA: sixteen indices into `m`. -/
abbrev SigmaRow := Vector (Fin 16) 16

def sigmaRow0 : SigmaRow := #v[0, 1, 2, 3, 4, 5, 6, 7, 8, 9, 10, 11, 12, 13, 14, 15]
def sigmaRow1 : SigmaRow := #v[14, 10, 4, 8, 9, 15, 13, 6, 1, 12, 0, 2, 11, 7, 5, 3]
def sigmaRow2 : SigmaRow := #v[11, 8, 12, 0, 5, 2, 15, 13, 10, 14, 3, 6, 7, 1, 9, 4]
def sigmaRow3 : SigmaRow := #v[7, 9, 3, 1, 13, 12, 11, 14, 2, 6, 5, 10, 4, 0, 15, 8]
def sigmaRow4 : SigmaRow := #v[9, 0, 5, 7, 2, 4, 10, 15, 14, 1, 11, 12, 6, 8, 3, 13]
def sigmaRow5 : SigmaRow := #v[2, 12, 6, 10, 0, 11, 8, 3, 4, 13, 7, 5, 15, 14, 1, 9]
def sigmaRow6 : SigmaRow := #v[12, 5, 1, 15, 14, 13, 4, 10, 0, 7, 6, 3, 9, 2, 8, 11]
def sigmaRow7 : SigmaRow := #v[13, 11, 7, 14, 12, 1, 3, 9, 5, 0, 15, 4, 8, 6, 2, 10]
def sigmaRow8 : SigmaRow := #v[6, 15, 14, 9, 11, 3, 0, 8, 12, 2, 13, 7, 1, 4, 10, 5]
def sigmaRow9 : SigmaRow := #v[10, 2, 8, 4, 7, 6, 1, 5, 15, 11, 9, 14, 3, 12, 13, 0]

/-- R132: twelve rows, rows 10 and 11 equal to rows 0 and 1. -/
def sigma : Vector SigmaRow 12 :=
  #v[sigmaRow0, sigmaRow1, sigmaRow2, sigmaRow3, sigmaRow4, sigmaRow5,
     sigmaRow6, sigmaRow7, sigmaRow8, sigmaRow9, sigmaRow0, sigmaRow1]

end Sys2Proof.Machine
end

