-- ==== Sys2Proof/Machine/Compress.lean ====
section
/-! DEFINITION. The internal operations G, ROUND and COMPRESS (43_compress.md). Inside a command they are functions of `v` and `m`, as
10_state.md R23 asks; as instructions of their own, ROUND and G act on the `work` registers (log 3). -/

namespace Sys2Proof.Machine

/-- G's twelve statements (R137), each on the values the ones before it left. -/
def mix (v : Vector Word 16) (a b c d : Fin 16) (x y : Word) : Vector Word 16 :=
  let v := v.set a (v[a] + v[b] + x)
  let v := v.set d (v[d] ^^^ v[a])
  let v := v.set d (rotr64 v[d] 32)
  let v := v.set c (v[c] + v[d])
  let v := v.set b (v[b] ^^^ v[c])
  let v := v.set b (rotr64 v[b] 24)
  let v := v.set a (v[a] + v[b] + y)
  let v := v.set d (v[d] ^^^ v[a])
  let v := v.set d (rotr64 v[d] 16)
  let v := v.set c (v[c] + v[d])
  let v := v.set b (v[b] ^^^ v[c])
  v.set b (rotr64 v[b] 63)

/-- ROUND's eight applications (R135): the column step, then the diagonal step. -/
def mixRound (m : Vector Word 16) (s : SigmaRow) (v : Vector Word 16) : Vector Word 16 :=
  let v := mix v 0 4 8 12 m[s[0]] m[s[1]]
  let v := mix v 1 5 9 13 m[s[2]] m[s[3]]
  let v := mix v 2 6 10 14 m[s[4]] m[s[5]]
  let v := mix v 3 7 11 15 m[s[6]] m[s[7]]
  let v := mix v 0 5 10 15 m[s[8]] m[s[9]]
  let v := mix v 1 6 11 12 m[s[10]] m[s[11]]
  let v := mix v 2 7 8 13 m[s[12]] m[s[13]]
  mix v 3 4 9 14 m[s[14]] m[s[15]]

/-- ROUND(r) on a working vector and its message words. -/
def Work.round (r : Fin 12) (w : Work) : Work := { w with v := mixRound w.m sigma[r] w.v }

/-- Steps 3 and 4 of COMPRESS: rounds 0 to 11 in order (R130, R135). -/
def Work.rounds (w : Work) : Work := (List.finRange 12).foldl (fun w r => w.round r) w

/-- Step 1 (R133). -/
def initialVector (chain : Vector Word 8) (counter0 counter1 flags0 flags1 : Word) : Vector Word 16 :=
  #v[chain[0], chain[1], chain[2], chain[3], chain[4], chain[5], chain[6], chain[7],
     iv[0], iv[1], iv[2], iv[3],
     iv[4] ^^^ counter0, iv[5] ^^^ counter1, iv[6] ^^^ flags0, iv[7] ^^^ flags1]

/-- Step 2 (R134). -/
def messageWords (m : Buffer) : Vector Word 16 := Vector.ofFn (fun i => messageWord m i)

/-- `v` and `m` after steps 1 and 2. -/
def beginCompress (chain : Vector Word 8) (counter0 counter1 flags0 flags1 : Word) (m : Buffer) : Work where
  v := initialVector chain counter0 counter1 flags0 flags1
  m := messageWords m

/-- Step 5, feed-forward (R138). -/
def feedForward (chain : Vector Word 8) (v : Vector Word 16) : Vector Word 8 :=
  Vector.ofFn (fun i : Fin 8 => chain[i] ^^^ v[i.val] ^^^ v[i.val + 8])

/-- COMPRESS as the function `(chain, counter, finalizationFlags, buffer) -> chain'` of R140. -/
def compressChain (chain : Vector Word 8) (counter0 counter1 flags0 flags1 : Word) (m : Buffer) : Vector Word 8 :=
  feedForward chain (beginCompress chain counter0 counter1 flags0 flags1 m).rounds.v

/-- The `v` and `m` that COMPRESS starts with on this engine. -/
def Engine.beginWork (e : Engine) : Work :=
  beginCompress e.chain e.counter0 e.counter1 e.finalizationFlags0 e.finalizationFlags1 e.buffer

/-- COMPRESS (R130): it writes `chain` only. -/
def Engine.compress (e : Engine) : Engine :=
  { e with chain := compressChain e.chain e.counter0 e.counter1 e.finalizationFlags0 e.finalizationFlags1 e.buffer }

/-- COMPRESS. Internal: no response (R130). -/
def execCompress (s : State) : Host.Outcome State Fault Refusal :=
  .next { s with engine := s.engine.compress }

/-- ROUND on the transient registers. Internal: no response (R135). -/
def execRound (r : Fin 12) (s : State) : Host.Outcome State Fault Refusal :=
  .next { s with work := s.work.round r }

/-- G on the transient registers (R137). Internal: no response. -/
def execG (a b c d : Fin 16) (x y : Word) (s : State) : Host.Outcome State Fault Refusal :=
  .next { s with work := { s.work with v := mix s.work.v a b c d x y } }

end Sys2Proof.Machine
end

