-- ==== Sys2Proof/Machine/Absorb.lean ====
section
/-! DEFINITION. ABSORB (41_update.md R110), UPDATE (R111) and UPDATE's block-wise form (R112). -/

namespace Sys2Proof.Machine

/-- The flush of a waiting full block, when more input arrives: the counter first, then COMPRESS (R110; 90_conflicts.md C2, C3). -/
def Engine.flush (e : Engine) : Engine :=
  if e.bufferLength = 128 then { (e.advanceCounter 128).compress with bufferLength := 0 } else e

/-- The store of the byte at the append address and the increment (R110; 20_memory.md R65 (a)). -/
def Engine.append (b : Byte) (e : Engine) : Option Engine :=
  (memWrite e.buffer e.appendAddress 1 b).map fun m =>
    { e with buffer := m, bufferLength := e.bufferLength + 1 }

/-- ABSORB. -/
def execAbsorb (b : Byte) (s : State) : Host.Outcome State Fault Refusal :=
  match phaseCheck s.engine.phase with
  | some code => .next (s.reject code)
  | none =>
    match s.engine.flush.append b with
    | some e => .next (s.accept e)
    | none => .fault .bufferAddressOutOfRange

/-- UPDATE: ABSORB of each byte in order; the empty span is no command (R111, R115). A rejected ABSORB does not stop the later ones
(30_encoding.md R81). -/
def execUpdate : List Byte → State → Host.Outcome State Fault Refusal
  | [], s => .next s
  | b :: rest, s => andThen (execAbsorb b s) (execUpdate rest)

/-- `buffer[addr + j] <- data[j]` for every `j` (R112's inner loop). -/
def Buffer.putBytes (m : Buffer) (addr : Nat) : List Byte → Buffer
  | [] => m
  | b :: rest => Buffer.putBytes (m.put addr b) (addr + 1) rest

/-- R112, UPDATE_BLOCKWISE: whole runs of bytes at a time, on an engine in ACTIVE. `fuel` bounds the loop; every iteration moves at
least one byte when `bufferLength <= 128`, so `data.length` is enough. -/
def updateBlockwise : (fuel : Nat) → List Byte → Engine → Engine
  | 0, _, e => e
  | _ + 1, [], e => e
  | fuel + 1, b :: rest, e =>
    let e := e.flush
    let k := min (128 - e.bufferLength.toNat) (b :: rest).length
    let run := (b :: rest).take k
    updateBlockwise fuel ((b :: rest).drop k)
      { e with
        buffer := e.buffer.putBytes e.bufferLength.toNat run
        bufferLength := e.bufferLength + BitVec.ofNat 8 k }

end Sys2Proof.Machine
end

