-- ==== Sys2Proof/Machine/Construct.lean ====
section
/-! DEFINITION. CONSTRUCT (40_construct.md R101) and the ILLEGAL words (60_exceptions.md R175). -/

namespace Sys2Proof.Machine

/-- The chain an accepted CONSTRUCT leaves: the IV, its first word XORed with the parameter word (R101). -/
def constructedChain (arg : Byte) : Vector Word 8 := iv.set 0 (iv[0] ^^^ parameterWord arg)

/-- The engine an accepted CONSTRUCT leaves, a function of `arg` alone (R101, R105). -/
def constructed (arg : Byte) : Engine where
  chain := constructedChain arg
  counter0 := 0
  counter1 := 0
  finalizationFlags0 := 0
  finalizationFlags1 := 0
  buffer := []
  bufferLength := 0
  outputSize := arg.setWidth 7
  phase := .active
  err := .ok

/-- CONSTRUCT: no phase check; the operand check stands before every write (R101, R102). -/
def execConstruct (arg : Byte) (s : State) : Host.Outcome State Fault Refusal :=
  if outputSizeLegal arg then .next (s.accept (constructed arg))
  else .next (s.reject .badOutputSize)

/-- An ILLEGAL word is rejected in every phase, whatever its bits (30_encoding.md R75; 60_exceptions.md R175). -/
def execIllegal (_w : CmdWord) (s : State) : Host.Outcome State Fault Refusal :=
  .next (s.reject .illegalCommand)

end Sys2Proof.Machine
end

