-- ==== Sys2Proof/Machine/Finalize.lean ====
section
/-! DEFINITION. FINALIZE (42_finalize.md R120). -/

namespace Sys2Proof.Machine

/-- The accepted FINALIZE: counter, flag, padding, COMPRESS, phase, in the order of R120. -/
def Engine.finalize (e : Engine) : Engine :=
  { ((e.advanceCounter e.bufferLength).setFinalFlag.pad).compress with phase := .done }

/-- FINALIZE. -/
def execFinalize (s : State) : Host.Outcome State Fault Refusal :=
  match phaseCheck s.engine.phase with
  | some code => .next (s.reject code)
  | none => .next (s.accept s.engine.finalize)

end Sys2Proof.Machine
end

