-- ==== Sys2Proof/Machine/Hash.lean ====
section
/-! DEFINITION. READDIGEST (30_encoding.md R81) and HASH (44_hash_oneshot.md R160). -/

namespace Sys2Proof.Machine

/-- READDIGEST: `RegRead(0x40) .. RegRead(0x40 + outputSize - 1)`, `outputSize` being the register's value (log 4). -/
def execReadDigest (s : State) : Host.Outcome State Fault Refusal :=
  .next (s.readWindow s.engine.outputSize.toNat)

/-- HASH as R160's procedure, the rule the opcode table names for the row: CONSTRUCT; on a non-zero response stop there ("fail with
r"), else UPDATE, FINALIZE, READDIGEST. R81's unconditional expansion is `expansion` (HostPort.lean; log 4). -/
def execHash (outputSize : Byte) (input : List Byte) (s : State) : Host.Outcome State Fault Refusal :=
  andThen (execConstruct outputSize s) fun s =>
    if s.lastResponse = some .ok then
      andThen (execUpdate input s) fun s => andThen (execFinalize s) execReadDigest
    else .next s

end Sys2Proof.Machine
end

