-- ==== Sys2Proof/Machine/Dispatch.lean ====
section
/-! DEFINITION. One arm per row of the opcode table. -/

namespace Sys2Proof.Machine

def exec (i : Instr) (s : State) : Host.Outcome State Fault Refusal :=
  match i with
  | .construct arg => Sys2Proof.Machine.execConstruct arg s
  | .absorb arg => Sys2Proof.Machine.execAbsorb arg s
  | .finalize => Sys2Proof.Machine.execFinalize s
  | .illegal w => Sys2Proof.Machine.execIllegal w s
  | .update span => Sys2Proof.Machine.execUpdate span s
  | .hash outputSize input => Sys2Proof.Machine.execHash outputSize input s
  | .readDigest => Sys2Proof.Machine.execReadDigest s
  | .compress => Sys2Proof.Machine.execCompress s
  | .round r => Sys2Proof.Machine.execRound r s
  | .g a b c d x y => Sys2Proof.Machine.execG a b c d x y s

end Sys2Proof.Machine
end

