-- ==== Sys2Proof/Machine/HostPort.lean ====
section
/-! DEFINITION. The two ports and reset (30_encoding.md R70), and the host actions a row of the opcode table stands for (R81). -/

namespace Sys2Proof.Machine

/-- One host action, taken completely (70_reset_and_hazards.md R210): a command word is decoded and executed; a read answers and
changes nothing else; reset is a step of its own (R202). -/
def takeAction (a : HostAction) (s : State) : Host.Outcome State Fault Refusal :=
  match a with
  | .cmd w => exec (decode w) s
  | .regRead n => .next (s.readRegister n)
  | .reset => .next s.resetEngine

/-- Presenting a command word: it becomes the host's next action (log 8). -/
def State.presentWord (w : CmdWord) (s : State) : State := { s with pending := .cmd w :: s.pending }

/-- The command words of a span: UPDATE's expansion (R81). -/
def updateActions (span : List Byte) : List HostAction := span.map fun b => .cmd (commandWord 0x02 b)

/-- READDIGEST's expansion for a given output size (R81; log 4 on the order). -/
def readDigestActions (outputSize : Nat) : List HostAction :=
  (List.range outputSize).map fun j => .regRead (BitVec.ofNat 8 (0x40 + j))

/-- What the host issues for HASH as 44_hash_oneshot.md R160's procedure: the CONSTRUCT alone when it will be rejected, since HASH then
fails. R81's expansion, which has no such test, is `hashExpansionActions` below (log 4). -/
def hashActions (outputSize : Byte) (input : List Byte) : List HostAction :=
  .cmd (commandWord 0x01 outputSize) ::
    if outputSizeLegal outputSize then
      updateActions input ++ .cmd (commandWord 0x03 0x00) :: readDigestActions outputSize.toNat
    else []

/-- What the host issues for a row of the table on an engine whose `outputSize` register is given; `none` for an internal operation,
which no host can issue (43_compress.md R130). -/
def hostActions (outputSize : BitVec 7) : Instr → Option (List HostAction)
  | .construct arg => some [.cmd (commandWord 0x01 arg)]
  | .absorb arg => some [.cmd (commandWord 0x02 arg)]
  | .finalize => some [.cmd (commandWord 0x03 0x00)]
  | .illegal w => some [.cmd w]
  | .update span => some (updateActions span)
  | .hash n input => some (hashActions n input)
  | .readDigest => some (readDigestActions outputSize.toNat)
  | .compress => none
  | .round _ => none
  | .g _ _ _ _ _ _ => none

/-! ## The expansions of 30_encoding.md R81, as the assembler writes them -/

/-- The expansion column of R81's table. HASH's is unconditional: the host goes on whatever the CONSTRUCT answers. READDIGEST stands
for its reads; every other row is itself. -/
def expansion : Instr → List Instr
  | .construct arg => [.construct arg]
  | .absorb arg => [.absorb arg]
  | .finalize => [.finalize]
  | .illegal w => [.illegal w]
  | .update span => span.map .absorb
  | .hash n input => .construct n :: input.map .absorb ++ [.finalize, .readDigest]
  | .readDigest => [.readDigest]
  | .compress => [.compress]
  | .round r => [.round r]
  | .g a b c d x y => [.g a b c d x y]

/-- The rows of a list one after the other; a rejection does not stop them (R81). -/
def execAll : List Instr → State → Host.Outcome State Fault Refusal
  | [], s => .next s
  | i :: rest, s => andThen (exec i s) (execAll rest)

/-- HASH's expansion as host actions, on an engine whose `outputSize` register is given. READDIGEST reads as many registers as
`outputSize` says when it comes: `n` after an accepted CONSTRUCT, else the value it had (log 4). -/
def hashExpansionActions (outputSize : BitVec 7) (n : Byte) (input : List Byte) : List HostAction :=
  .cmd (commandWord 0x01 n) :: (updateActions input ++ .cmd (commandWord 0x03 0x00) ::
    readDigestActions (if outputSizeLegal n then n.toNat else outputSize.toNat))

end Sys2Proof.Machine
end

