-- ==== Sys2Proof/Machine/Step.lean ====
section
/-! DEFINITION. One step: the oldest pending host action. With nothing pending the engine "is idle and holds its state
indefinitely" (60_exceptions.md R193; log 1). -/

namespace Sys2Proof.Machine

/-- One step of the machine (00_scope.md R10; 70_reset_and_hazards.md R210). -/
def step (s : State) : Host.Outcome State Fault Refusal :=
  match s.pending with
  | [] => .next s
  | a :: rest => takeAction a { s with pending := rest }

/-- `s` with a table word as the next command the host presents (log 8). -/
def State.withFetchWord (s : State) (nbits w : Nat) : State := s.presentWord (tableWord nbits w)

end Sys2Proof.Machine
end

