-- ==== Sys2Proof/Machine/HostSoftware.lean ====
section
/-! DEFINITION. The host software the spec gives: HEX (44_hash_oneshot.md R163), what HASH returns (R160), and the assembler's line
(30_encoding.md R80, R81). None of it is part of the engine. -/

namespace Sys2Proof.Machine

/-! ## HEX -/

/-- The lowercase digit of a nibble. -/
def hexDigit (n : BitVec 4) : Char :=
  if n.toNat < 10 then Char.ofNat (48 + n.toNat) else Char.ofNat (87 + n.toNat)

/-- HEX (R163): two digits a byte, the high nibble first, no separator. -/
def hexEncode : List Byte → List Char
  | [] => []
  | b :: rest => hexDigit (b.extractLsb' 4 4) :: hexDigit (b.extractLsb' 0 4) :: hexEncode rest

/-- The value an answer carries, if it is one of the read port. -/
def PortOutput.readValue : PortOutput → Option Byte
  | .response _ => none
  | .value v => some v

/-- The newest `n` answers' read values, the oldest of them first. -/
def State.lastValues (n : Nat) (s : State) : List Byte := ((s.outputs.take n).reverse).filterMap PortOutput.readValue

/-- What HASH returns to its caller. -/
inductive HashResult where
  | failed (code : Code)
  | digest (text : List Char)
  deriving DecidableEq, Repr

/-- HASH with its return value (R160): "fail with r", or HEX of the bytes read. `none` if the machine stopped (it does not). -/
def hashResult (outputSize : Byte) (input : List Byte) (s : State) : Option HashResult :=
  match execHash outputSize input s with
  | .next t =>
    match t.lastResponse with
    | some code => some (.failed code)
    | none => some (.digest (hexEncode (t.lastValues outputSize.toNat)))
  | .fault _ => none
  | .refused _ => none

/-- The default output size of the software API (40_construct.md R104; R160). -/
def defaultOutputSize : Byte := 64

/-! ## The assembler's line (log 12) -/

/-- A token of a line: a bare word, or the text between double quotes. -/
inductive Token where
  | word (chars : List Char)
  | text (chars : List Char)
  deriving DecidableEq, Repr

/-- The double quote. -/
def quoteChar : Char := Char.ofNat 34

/-- The bare word collected so far, if it has a character. -/
def bareWord (cur : List Char) : List Token := if cur = [] then [] else [.word cur]

/-- The tokens of a line: blanks, tabs and commas separate, `#` outside quotes starts a comment. `none` for an unclosed quote. -/
def lexLine : (inText : Bool) → (cur : List Char) → List Char → Option (List Token)
  | false, cur, [] => some (bareWord cur)
  | true, _, [] => none
  | false, cur, c :: rest =>
    if c = '#' then some (bareWord cur)
    else if c = quoteChar then (lexLine true [] rest).map (bareWord cur ++ ·)
    else if c = ' ' ∨ c = ',' ∨ c = Char.ofNat 9 then (lexLine false [] rest).map (bareWord cur ++ ·)
    else lexLine false (cur ++ [c]) rest
  | true, cur, c :: rest =>
    if c = quoteChar then (lexLine false [] rest).map (.text cur :: ·)
    else lexLine true (cur ++ [c]) rest

/-- The value of a digit, `0`..`9`, `a`..`f`, `A`..`F`. -/
def digitValue (c : Char) : Option Nat :=
  if '0' ≤ c ∧ c ≤ '9' then some (c.toNat - 48)
  else if 'a' ≤ c ∧ c ≤ 'f' then some (c.toNat - 87)
  else if 'A' ≤ c ∧ c ≤ 'F' then some (c.toNat - 55)
  else none

/-- Digits in a base, most significant first, onto the value so far. -/
def digitsValue (base : Nat) : List Char → Nat → Option Nat
  | [], acc => some acc
  | c :: rest, acc =>
    match digitValue c with
    | some d => if d < base then digitsValue base rest (base * acc + d) else none
    | none => none

/-- "numbers are decimal or `0x` hexadecimal" (R80). -/
def numberValue : List Char → Option Nat
  | [] => none
  | ['0', 'x'] => none
  | '0' :: 'x' :: digits => digitsValue 16 digits 0
  | digits => digitsValue 10 digits 0

/-- A number below a bound. -/
def numberBelow (bound : Nat) : Token → Option Nat
  | .word cs => (numberValue cs).bind fun n => if n < bound then some n else none
  | .text _ => none

/-- The bytes of a token: a byte, or the ASCII bytes of a text (R81). -/
def tokenBytes (t : Token) : Option (List Byte) :=
  match t with
  | .word cs => (numberBelow 256 (.word cs)).map fun n => [BitVec.ofNat 8 n]
  | .text cs => cs.mapM fun c => if c.toNat < 128 then some (BitVec.ofNat 8 c.toNat) else none

/-- The bytes of a span (R81). -/
def spanBytes (ts : List Token) : Option (List Byte) := (ts.mapM tokenBytes).map List.flatten

/-- The instruction of a mnemonic and its operands (R80, R81). -/
def parseTokens (mnemonic : List Char) (operands : List Token) : Option Instr :=
  if mnemonic = "CONSTRUCT".toList then
    match operands with
    | [t] => (numberBelow 256 t).map fun n => .construct (BitVec.ofNat 8 n)
    | _ => none
  else if mnemonic = "ABSORB".toList then
    match operands with
    | [t] => (numberBelow 256 t).map fun n => .absorb (BitVec.ofNat 8 n)
    | _ => none
  else if mnemonic = "FINALIZE".toList then (if operands = [] then some .finalize else none)
  else if mnemonic = ".word".toList then
    match operands with
    | [t] => (numberBelow 65536 t).map fun n => decode (BitVec.ofNat 16 n)
    | _ => none
  else if mnemonic = "UPDATE".toList then (spanBytes operands).map .update
  else if mnemonic = "HASH".toList then
    match operands with
    | t :: span => (numberBelow 256 t).bind fun n => (spanBytes span).map (.hash (BitVec.ofNat 8 n))
    | [] => none
  else if mnemonic = "READDIGEST".toList then (if operands = [] then some .readDigest else none)
  else none

/-- One line of assembly (R80): `none` for a line the assembler refuses, `some none` for an empty or comment line. -/
def assembleLine (line : List Char) : Option (Option Instr) :=
  match lexLine false [] line with
  | none => none
  | some [] => some none
  | some (.word m :: operands) => (parseTokens m operands).map some
  | some (.text _ :: _) => none

/-- The rows a line stands for, its pseudo-instruction expanded (R81); none for an empty or comment line. -/
def assembleRows (line : List Char) : Option (List Instr) :=
  (assembleLine line).map fun i => (i.map expansion).getD []

end Sys2Proof.Machine
end

