-- ==== Sys2Proof/Machine/Run.lean ====
section
/-! DEFINITION. A run of a number of steps, the same as `Host.Core.run` of the core (Laws/Exec.lean, `core_run_eq_runSteps`). -/

namespace Sys2Proof.Machine

/-- `k` steps, stopping at the first that stops. -/
def runSteps : Nat → State → Host.Outcome State Fault Refusal
  | 0, s => .next s
  | k + 1, s => andThen (step s) (runSteps k)

end Sys2Proof.Machine
end

