-- ==== Sys2Proof/Config.lean ====
section
/-! DEFINITION. What the spec leaves to the implementation: the number of engines alone (00_scope.md R5; 92_eei_decisions.md D25).
Every other parameter of R5 is fixed by the spec and stands where it is used. The spec has no free value (93_implementation_defined.md). -/

namespace Sys2Proof

/-- `N_ENGINES`, "OPEN: parameter `N_ENGINES` >= 1, the model takes it as an argument" (R5). -/
structure Config where
  nEngines : Nat
  deriving DecidableEq, Repr

/-- R5: at least one engine. -/
abbrev Config.ok (c : Config) : Prop := 1 ≤ c.nEngines

end Sys2Proof
end

