-- ==== Sys2Proof/Machine/System.lean ====
section
/-! DEFINITION. `N_ENGINES` engines, each with its own complete state and its own ports (60_exceptions.md R192; 10_state.md R41). They
share the constant tables alone (log 10). -/

namespace Sys2Proof.Machine

/-- A system of `N_ENGINES` engines. -/
abbrev System (c : Config) := Vector State c.nEngines

/-- Every engine right after reset. -/
def System.reset (c : Config) : System c := Vector.replicate c.nEngines State.reset

/-- Engine `i` takes a step. -/
def System.stepAt {c : Config} (i : Fin c.nEngines) (sys : System c) : Host.Outcome (System c) Fault Refusal :=
  match step sys[i] with
  | .next s => .next (sys.set i s)
  | .fault r => .fault r
  | .refused r => .refused r

/-- The engines of a list take their steps in that order; a stop ends the run. -/
def System.runOrder {c : Config} : List (Fin c.nEngines) → System c → Host.Outcome (System c) Fault Refusal
  | [], sys => .next sys
  | i :: rest, sys =>
    match sys.stepAt i with
    | .next sys' => System.runOrder rest sys'
    | .fault r => .fault r
    | .refused r => .refused r

end Sys2Proof.Machine
end

