-- ==== Sys2Proof/Safety.lean ====
section
/-! DEFINITION. The terms claims use: the invariant of 10_state.md R36, a step that does not stop, and the digest of a whole message
computed block by block, without an engine. -/

namespace Sys2Proof.Machine

/-- The 128-bit count `t` (10_state.md R25). -/
def Engine.t (e : Engine) : BitVec 128 := e.counter1 ++ e.counter0

/-- What of R36 is about one state; its items 6, 8 and 9 compare states and are claims of their own. The canonical form of the buffer
is the model's (log 7). -/
structure Engine.Inv (e : Engine) : Prop where
  /-- The buffer is in canonical form: 128 bytes and nothing else (20_memory.md R50). -/
  buffer_wf : e.buffer.wf = true
  /-- R36 item 1. -/
  length_le : e.bufferLength.toNat ≤ 128
  /-- R36 item 2. -/
  size_legal : e.phase ≠ .idle → 1 ≤ e.outputSize.toNat ∧ e.outputSize.toNat ≤ 64
  /-- R36 item 3. -/
  flag_high : e.finalizationFlags1 = 0
  /-- R36 item 4. -/
  flag_active : e.phase = .active → e.finalizationFlags0 = 0
  /-- R36 item 4. -/
  flag_done : e.phase = .done → e.finalizationFlags0 = 0xFFFFFFFFFFFFFFFF
  /-- R36 item 5. -/
  count_blocks : e.phase = .active → e.t.toNat % 128 = 0
  /-- R36 item 7. -/
  tail_nonempty : e.phase = .active → 0 < e.t.toNat → 1 ≤ e.bufferLength.toNat
  /-- R36 item 11. -/
  err_idle : e.phase = .idle → e.err ≠ .alreadyFinalized
  /-- R36 item 11. -/
  err_active : e.phase = .active → e.err ≠ .alreadyFinalized ∧ e.err ≠ .notConstructed
  /-- R36 item 11. -/
  err_done : e.phase = .done → e.err ≠ .notConstructed
  /-- R36 item 12. -/
  idle_zero : e.phase = .idle → { e with err := .ok } = Engine.reset

/-- The machine's invariant: R36 of the engine. The transient registers and the host's lists are under none. -/
def State.Inv (s : State) : Prop := s.engine.Inv

/-- A step that does not stop. -/
abbrev SafeStep (s : State) : Prop := ∃ s', step s = .next s'

/-! ## The digest of a whole message (41_update.md R114; 42_finalize.md R121, R124, R125) -/

/-- The low counter word of a byte count. -/
def countLow (n : Nat) : Word := BitVec.ofNat 64 n

/-- The high counter word of a byte count. -/
def countHigh (n : Nat) : Word := BitVec.ofNat 64 (n / 2 ^ 64)

/-- `q`, the number of flushes after `n` bytes (R114, R118); 0 for no byte. -/
def flushCount (n : Nat) : Nat := (n - 1) / 128

/-- Block `k` of a message, the last one possibly short. -/
def messageBlock (msg : List Byte) (k : Nat) : List Byte := (msg.drop (128 * k)).take 128

/-- A block in the buffer, zero-padded (42_finalize.md R122). -/
def blockBuffer (block : List Byte) : Buffer := Buffer.putBytes [] 0 block

/-- The chain after the first `k` blocks, none of them the last: block number `k` is compressed with `t = 128 k` and the flag clear. -/
def chainAfter (outputSize : Byte) (msg : List Byte) : Nat → Vector Word 8
  | 0 => constructedChain outputSize
  | k + 1 =>
    compressChain (chainAfter outputSize msg k) (countLow (128 * (k + 1))) (countHigh (128 * (k + 1))) 0 0
      (blockBuffer (messageBlock msg k))

/-- The chain after the last block, compressed with `t` the message length and the flag set. -/
def finalChain (outputSize : Byte) (msg : List Byte) : Vector Word 8 :=
  compressChain (chainAfter outputSize msg (flushCount msg.length)) (countLow msg.length) (countHigh msg.length)
    0xFFFFFFFFFFFFFFFF 0 (blockBuffer (messageBlock msg (flushCount msg.length)))

/-- The digest: the first `outputSize` bytes of the chain's little-endian serialization (R124). -/
def digestOf (outputSize : Byte) (msg : List Byte) : List Byte :=
  ((List.finRange 64).take outputSize.toNat).map (chainByte (finalChain outputSize msg))

end Sys2Proof.Machine
end

