-- ==== Sys2Proof/Certificates/Slice0/Obligations.lean ====
section
/-! DEFINITION. The statements for the provers. Each docstring names the rule of the spec it formalises. -/

open Sys2Proof Sys2Proof.Machine

/-! ## Encoding -/

/-- Words written out from 30_encoding.md R71, R72 and R75, with the rows they stand for. -/
def Obligations.SpecWordsDecode : Prop :=
  decode 0b0000000101000000#16 = .construct 64 ∧ decode 0b0000000100000000#16 = .construct 0 ∧
  decode 0b0000000111111111#16 = .construct 255 ∧ decode 0b0000001001100001#16 = .absorb 0x61 ∧
  decode 0b0000001100000000#16 = .finalize ∧ decode 0b0000001100000001#16 = .illegal 0x0301 ∧
  decode 0b0000000000000000#16 = .illegal 0x0000 ∧ decode 0b0000000001000000#16 = .illegal 0x0040 ∧
  decode 0b0000010000000000#16 = .illegal 0x0400 ∧ decode 0b1000000100000000#16 = .illegal 0x8100

/-- No bit of an encoding is dropped: a well-formed instruction with a word of its own (R72, R80) is what that word decodes to; and
exactly the four rows with a word have one (R81, R130). -/
def Obligations.DecodeOfEncodeIsTheInstruction : Prop :=
  ∀ i : Instr, i.wf = true →
    (∀ w, encode i = some w → decode w = i) ∧
    (encode i = none ↔ (∃ span, i = .update span) ∨ (∃ n input, i = .hash n input) ∨ i = .readDigest ∨ i = .compress ∨
      (∃ r, i = .round r) ∨ ∃ a b c d x y, i = .g a b c d x y)

/-- Every one of the 65536 words has one meaning: it decodes to a well-formed instruction whose word it is (R79). -/
def Obligations.EncodeOfDecodeIsTheWord : Prop :=
  ∀ w : CmdWord, (decode w).wf = true ∧ encode (decode w) = some w

/-- R79's decoder, with `op` and `arg` as the numbers `w div 256` and `w mod 256`. -/
def Obligations.DecoderReadsOpAndArg : Prop :=
  ∀ w : CmdWord,
    (w.toNat / 256 = 1 → decode w = .construct (BitVec.ofNat 8 (w.toNat % 256))) ∧
    (w.toNat / 256 = 2 → decode w = .absorb (BitVec.ofNat 8 (w.toNat % 256))) ∧
    (w.toNat = 768 → decode w = .finalize) ∧
    (w.toNat / 256 ≠ 1 → w.toNat / 256 ≠ 2 → w.toNat ≠ 768 → decode w = .illegal w)

/-! ## The step -/

/-- A step runs the decoded command (70_reset_and_hazards.md R210): the oldest pending word `w` of an instruction `i` is executed on the
state without it, and nothing is added around `exec`. A table word stored with `withFetchWord` is the next one. -/
def Obligations.StepRunsTheDecodedCommand : Prop :=
  (∀ (s : State) (i : Instr) (w : CmdWord) (rest : List HostAction),
    i.wf = true → encode i = some w → s.pending = .cmd w :: rest → step s = exec i { s with pending := rest }) ∧
  (∀ (s : State) (w : CmdWord), step (s.withFetchWord 16 w.toNat) = exec (decode w) s)

/-- The other host actions (R70, R202), and the idle engine (60_exceptions.md R193). The list of pending actions, the record of
answers and the transient registers' reset value are the model's (log 1 to log 3). -/
def Obligations.StepServesReadsResetAndIdle : Prop :=
  (∀ (s : State) (n : Byte) (rest : List HostAction), s.pending = .regRead n :: rest →
    step s = .next { s with pending := rest, outputs := .value (s.engine.regRead n) :: s.outputs }) ∧
  (∀ (s : State) (rest : List HostAction), s.pending = .reset :: rest →
    step s = .next { s with pending := rest, engine := Engine.reset, work := Work.reset }) ∧
  (∀ s : State, s.pending = [] → step s = .next s)

/-! ## CONSTRUCT -/

/-- 40_construct.md R101, whole: the encoding, the accepted command in every phase with every register's new value, and the rejected
one. Everything but the engine's registers and the recorded response is unchanged. -/
def Obligations.ConstructInitializesEveryRegister : Prop :=
  ∀ (arg : Byte) (s : State),
    decode (0x0100#16 ||| arg.setWidth 16) = .construct arg ∧
    (1 ≤ arg.toNat ∧ arg.toNat ≤ 64 →
      ∃ e, exec (.construct arg) s = .next { s with engine := e, outputs := .response .ok :: s.outputs } ∧
        e.chain[0] = iv[0] ^^^ (0x0000000001010000#64 ||| arg.setWidth 64) ∧
        (∀ i : Fin 8, i ≠ 0 → e.chain[i] = iv[i]) ∧
        e.counter0 = 0 ∧ e.counter1 = 0 ∧ e.finalizationFlags0 = 0 ∧ e.finalizationFlags1 = 0 ∧
        (∀ a, e.buffer.get a = 0x00) ∧ e.bufferLength = 0 ∧ e.outputSize.toNat = arg.toNat ∧
        e.err = .ok ∧ e.phase = .active) ∧
    (¬(1 ≤ arg.toNat ∧ arg.toNat ≤ 64) →
      exec (.construct arg) s = .next { s with
        engine := { s.engine with err := if s.engine.err = .ok then .badOutputSize else s.engine.err }
        outputs := .response .badOutputSize :: s.outputs })

/-- After an accepted CONSTRUCT the engine is a function of `arg` alone (R101), so nothing of the previous computation survives and
CONSTRUCT in mid-stream discards (R100; 70_reset_and_hazards.md R215). -/
def Obligations.ConstructForgetsThePast : Prop :=
  ∀ (arg : Byte) (s s' : State), outputSizeLegal arg = true →
    ∃ t t', exec (.construct arg) s = .next t ∧ exec (.construct arg) s' = .next t' ∧ t.engine = t'.engine ∧
      exec (.construct arg) t' = .next { t' with outputs := .response .ok :: t'.outputs }

/-- The parameter word (30_encoding.md R74): an accepted CONSTRUCT XORs it into `chain[0]` alone, and its fields are those of the
table. -/
def Obligations.ParameterWordHasTheTableFields : Prop :=
  ∀ (arg : Byte) (s : State), 1 ≤ arg.toNat → arg.toNat ≤ 64 →
    ∃ t P, exec (.construct arg) s = .next t ∧ t.engine.chain[0] = iv[0] ^^^ P ∧
      (∀ i : Fin 8, i ≠ 0 → t.engine.chain[i] = iv[i]) ∧
      P.extractLsb' 0 8 = arg ∧ P.extractLsb' 8 8 = 0x00#8 ∧ P.extractLsb' 16 8 = 0x01#8 ∧
      P.extractLsb' 24 8 = 0x01#8 ∧ P.extractLsb' 32 32 = 0#32

/-! ## ABSORB -/

/-- 41_update.md R110, whole: the encoding; rejection in IDLE and DONE; in ACTIVE with room in the buffer, the byte stored at
`bufferLength`; in ACTIVE with a full block waiting, the counter advanced by 128, that block compressed with the advanced counter, and
the byte stored at address 0. In each case the state named is the whole next state, so every register not named is unchanged, and every
byte of the buffer but the one stored reads as before. -/
def Obligations.AbsorbStoresOneByte : Prop :=
  ∀ (b : Byte) (s : State), decode (0x0200#16 ||| b.setWidth 16) = .absorb b ∧
    (s.engine.phase = .idle → exec (.absorb b) s = .next { s with
      engine := { s.engine with err := if s.engine.err = .ok then .notConstructed else s.engine.err }
      outputs := .response .notConstructed :: s.outputs }) ∧
    (s.engine.phase = .done → exec (.absorb b) s = .next { s with
      engine := { s.engine with err := if s.engine.err = .ok then .alreadyFinalized else s.engine.err }
      outputs := .response .alreadyFinalized :: s.outputs }) ∧
    (s.engine.phase = .active → s.engine.buffer.wf = true → s.engine.bufferLength.toNat < 128 →
      ∃ m : Buffer, exec (.absorb b) s = .next { s with
          engine := { s.engine with buffer := m, bufferLength := s.engine.bufferLength + 1 }
          outputs := .response .ok :: s.outputs } ∧
        m.wf = true ∧ ∀ a, m.get a = if a = s.engine.bufferLength.toNat then b else s.engine.buffer.get a) ∧
    (s.engine.phase = .active → s.engine.buffer.wf = true → s.engine.bufferLength = 128 →
      ∃ (m : Buffer) (lo hi : Word), exec (.absorb b) s = .next { s with
          engine := { s.engine with
            chain := compressChain s.engine.chain lo hi s.engine.finalizationFlags0 s.engine.finalizationFlags1 s.engine.buffer
            counter0 := lo
            counter1 := hi
            buffer := m
            bufferLength := 1 }
          outputs := .response .ok :: s.outputs } ∧
        hi ++ lo = s.engine.t + 128 ∧
        m.wf = true ∧ ∀ a, m.get a = if a = 0 then b else s.engine.buffer.get a)

/-- ABSORB's frame, on every state (10_state.md R40): the address stored to is the append address after the flush, and no other byte
of the buffer changes; the flags, the size, the phase, `v` and `m` and what is pending never change; without a flush the chain and the
counter do not; a rejected ABSORB changes no byte. -/
def Obligations.AbsorbLeavesTheRestUnchanged : Prop :=
  ∀ (b : Byte) (s t : State), exec (.absorb b) s = .next t →
    t.work = s.work ∧ t.pending = s.pending ∧ t.engine.outputSize = s.engine.outputSize ∧ t.engine.phase = s.engine.phase ∧
    t.engine.finalizationFlags0 = s.engine.finalizationFlags0 ∧ t.engine.finalizationFlags1 = s.engine.finalizationFlags1 ∧
    (s.engine.phase = .active → t.engine.err = s.engine.err ∧
      ∀ a, a ≠ s.engine.flush.appendAddress → t.engine.buffer.get a = s.engine.buffer.get a) ∧
    (s.engine.bufferLength ≠ 128 ∨ s.engine.phase ≠ .active →
      t.engine.chain = s.engine.chain ∧ t.engine.counter0 = s.engine.counter0 ∧ t.engine.counter1 = s.engine.counter1) ∧
    (s.engine.phase ≠ .active →
      t.engine.bufferLength = s.engine.bufferLength ∧ ∀ a, t.engine.buffer.get a = s.engine.buffer.get a)

/-- `MemWrite` requires `addr + n <= 128` (20_memory.md R53), so ABSORB has no effect the spec gives when `bufferLength` is above 128,
which no run reaches: the model stops (the model's choice, log 5). -/
def Obligations.AbsorbBeyondTheBufferStops : Prop :=
  ∀ (b : Byte) (s : State), s.engine.phase = .active → 128 < s.engine.bufferLength.toNat →
    exec (.absorb b) s = .fault .bufferAddressOutOfRange

/-! ## FINALIZE -/

/-- 42_finalize.md R120, whole: the encoding; rejection in IDLE and DONE; in ACTIVE the counter advanced by `bufferLength`, the low
flag word all-ones, the tail of the buffer zeroed, that block compressed with the new counter and flag, phase DONE. The state named is
the whole next state, so every register not named is unchanged; bytes below `bufferLength` read as before. -/
def Obligations.FinalizeCompressesThePaddedTail : Prop :=
  ∀ s : State,
    (∀ x : Byte, decode (0x0300#16 ||| x.setWidth 16) = if x = 0 then .finalize else .illegal (0x0300#16 ||| x.setWidth 16)) ∧
    (s.engine.phase = .idle → exec .finalize s = .next { s with
      engine := { s.engine with err := if s.engine.err = .ok then .notConstructed else s.engine.err }
      outputs := .response .notConstructed :: s.outputs }) ∧
    (s.engine.phase = .done → exec .finalize s = .next { s with
      engine := { s.engine with err := if s.engine.err = .ok then .alreadyFinalized else s.engine.err }
      outputs := .response .alreadyFinalized :: s.outputs }) ∧
    (s.engine.phase = .active → s.engine.buffer.wf = true →
      ∃ (m : Buffer) (lo hi : Word), exec .finalize s = .next { s with
          engine := { s.engine with
            chain := compressChain s.engine.chain lo hi 0xFFFFFFFFFFFFFFFF s.engine.finalizationFlags1 m
            counter0 := lo
            counter1 := hi
            finalizationFlags0 := 0xFFFFFFFFFFFFFFFF
            buffer := m
            phase := .done }
          outputs := .response .ok :: s.outputs } ∧
        hi ++ lo = s.engine.t + s.engine.bufferLength.setWidth 128 ∧
        m.wf = true ∧
        ∀ a, a < 128 → m.get a = if a < s.engine.bufferLength.toNat then s.engine.buffer.get a else 0x00)

/-- FINALIZE's frame, on every state: `bufferLength`, the size, the high flag word, `v` and `m` and what is pending never change; `err`
changes on a rejection only; no byte outside the fill addresses changes (R120; 20_memory.md R65 (b)); a rejected FINALIZE changes no
register but `err` and no byte. -/
def Obligations.FinalizeLeavesTheRestUnchanged : Prop :=
  ∀ s t : State, exec .finalize s = .next t →
    t.work = s.work ∧ t.pending = s.pending ∧ t.engine.bufferLength = s.engine.bufferLength ∧
    t.engine.outputSize = s.engine.outputSize ∧ t.engine.finalizationFlags1 = s.engine.finalizationFlags1 ∧
    (s.engine.phase = .active → t.engine.err = s.engine.err) ∧
    (∀ a, a ∉ s.engine.fillAddresses → t.engine.buffer.get a = s.engine.buffer.get a) ∧
    (s.engine.phase ≠ .active →
      t.engine.chain = s.engine.chain ∧ t.engine.counter0 = s.engine.counter0 ∧ t.engine.counter1 = s.engine.counter1 ∧
      t.engine.finalizationFlags0 = s.engine.finalizationFlags0 ∧ t.engine.phase = s.engine.phase ∧
      ∀ a, t.engine.buffer.get a = s.engine.buffer.get a)

/-! ## ILLEGAL words and rejections -/

/-- 60_exceptions.md R175: every word the decoder maps to ILLEGAL is rejected with code 4 in every phase; nothing but `err` changes. -/
def Obligations.IllegalWordsAreRejectedInEveryPhase : Prop :=
  ∀ (w : CmdWord) (s : State),
    decode w = .illegal w →
    exec (decode w) s = .next { s with
      engine := { s.engine with err := if s.engine.err = .ok then .illegalCommand else s.engine.err }
      outputs := .response .illegalCommand :: s.outputs }

/-- 60_exceptions.md R176: a command word whose response is not OK leaves the state exactly as it was but for the latched `err`. -/
def Obligations.RejectionChangesNothingButErr : Prop :=
  ∀ (w : CmdWord) (s t : State) (code : Code),
    exec (decode w) s = .next t → t.lastResponse = some code → code ≠ .ok →
    t = { s with
      engine := { s.engine with err := if s.engine.err = .ok then code else s.engine.err }
      outputs := .response code :: s.outputs }

/-- 60_exceptions.md R177, over every step: a rejected command leaves its code in `err` if `err` was 0, and else leaves `err`; a reset
and an accepted CONSTRUCT clear it; nothing else changes it: not a read, not an accepted command of another kind. -/
def Obligations.ErrKeepsTheFirstCause : Prop :=
  ∀ s t : State, step s = .next t →
    (∀ w rest code, s.pending = .cmd w :: rest → t.lastResponse = some code → code ≠ .ok →
      t.engine.err = if s.engine.err = .ok then code else s.engine.err) ∧
    (∀ rest, s.pending = .reset :: rest → t.engine.err = .ok) ∧
    (∀ w arg rest, s.pending = .cmd w :: rest → decode w = .construct arg → 1 ≤ arg.toNat → arg.toNat ≤ 64 →
      t.engine.err = .ok) ∧
    (s.engine.err ≠ .ok → t.engine.err = s.engine.err ∨
      (t.engine.err = .ok ∧ ((∃ rest, s.pending = .reset :: rest) ∨
        ∃ w arg rest, s.pending = .cmd w :: rest ∧ decode w = .construct arg ∧ 1 ≤ arg.toNat ∧ arg.toNat ≤ 64))) ∧
    (s.engine.err = .ok → t.engine.err ≠ .ok →
      (∃ w rest, s.pending = .cmd w :: rest) ∧ t.lastResponse = some t.engine.err)

/-- The complete response matrix after 60_exceptions.md R178, and the codes' numbers (30_encoding.md R78): decoding first, then the
phase, then the operand. -/
def Obligations.ResponseMatrix : Prop :=
  (Code.ok.bits = 0 ∧ Code.badOutputSize.bits = 1 ∧ Code.alreadyFinalized.bits = 2 ∧ Code.notConstructed.bits = 3 ∧
    Code.illegalCommand.bits = 4) ∧
  ∀ (w : CmdWord) (s : State), s.engine.bufferLength.toNat ≤ 128 →
    ∃ t, exec (decode w) s = .next t ∧ t.lastResponse = some (
      if w.toNat / 256 = 1 then (if 1 ≤ w.toNat % 256 ∧ w.toNat % 256 ≤ 64 then Code.ok else .badOutputSize)
      else if w.toNat / 256 = 2 ∨ w.toNat = 768 then
        (match s.engine.phase with | .idle => .notConstructed | .active => .ok | .done => .alreadyFinalized)
      else .illegalCommand)

/-! ## UPDATE -/

/-- Chunking invariance on the whole state (41_update.md R113), and the empty span (R115). -/
def Obligations.UpdateIsChunkingInvariant : Prop :=
  ∀ (a b : List Byte) (s : State),
    exec (.update (a ++ b)) s = andThen (exec (.update a) s) (fun t => exec (.update b) t) ∧
    exec (.update []) s = .next s

/-- The block-wise form (41_update.md R112) has exactly the effect of the byte-wise one, from every state in ACTIVE. -/
def Obligations.UpdateEqualsTheBlockwiseForm : Prop :=
  ∀ (data : List Byte) (s : State), s.engine.phase = .active → s.engine.bufferLength.toNat ≤ 128 →
    exec (.update data) s = .next { s with
      engine := updateBlockwise data.length data s.engine
      outputs := List.replicate data.length (.response .ok) ++ s.outputs }

/-- The closed form of the state after `N` accepted ABSORBs following an accepted CONSTRUCT (41_update.md R114), the don't-care bytes
included. `chainAfter n msg q` is the chain that the rule describes: `q` compressions, one for each full block, from R105's chain. That
the transient registers are unchanged is the model's choice (log 3). -/
def Obligations.UpdateClosedForm : Prop :=
  ∀ (n : Byte) (msg : List Byte) (s : State), 1 ≤ n.toNat → n.toNat ≤ 64 →
    ∃ s₁ t, exec (.construct n) s = .next s₁ ∧ exec (.update msg) s₁ = .next t ∧
      let N := msg.length
      let q := (N - 1) / 128
      t.engine.counter0 = BitVec.ofNat 64 (128 * q) ∧ t.engine.counter1 = BitVec.ofNat 64 (128 * q / 2 ^ 64) ∧
      t.engine.bufferLength.toNat = N - 128 * q ∧
      (∀ j, j < N - 128 * q → t.engine.buffer.get j = msg.getD (128 * q + j) 0) ∧
      (∀ j, N - 128 * q ≤ j → j ≤ 127 →
        t.engine.buffer.get j = if q = 0 then 0x00 else msg.getD (128 * (q - 1) + j) 0) ∧
      t.engine.chain = chainAfter n msg q ∧
      t.engine.finalizationFlags0 = 0 ∧ t.engine.finalizationFlags1 = 0 ∧ t.engine.outputSize.toNat = n.toNat ∧
      t.engine.phase = .active ∧ t.engine.err = .ok ∧ t.work = s.work ∧ t.pending = s.pending ∧
      t.outputs = List.replicate N (.response .ok) ++ .response .ok :: s.outputs

/-- What happens depends on the number of bytes absorbed, never on their values (30_encoding.md R82; 70_reset_and_hazards.md R217):
every register but the chain and the buffer, and the responses, are those of any other span of the same length. -/
def Obligations.ControlDoesNotDependOnData : Prop :=
  ∀ (xs ys : List Byte) (s t u : State), xs.length = ys.length →
    exec (.update xs) s = .next t → exec (.update ys) s = .next u →
    u = { t with engine := { t.engine with chain := u.engine.chain, buffer := u.engine.buffer } }

/-! ## READDIGEST and HASH -/

/-- READDIGEST (30_encoding.md R81): one answer for each register from 0x40 on, `outputSize` of them, the newest first in the record
(the ascending order of the reads is the model's, log 4); nothing else changes. -/
def Obligations.ReadDigestReadsTheWindow : Prop :=
  ∀ s : State, exec .readDigest s = .next { s with
    outputs := ((List.range s.engine.outputSize.toNat).map fun j =>
      PortOutput.value (s.engine.regRead (BitVec.ofNat 8 (0x40 + j)))).reverse ++ s.outputs }

/-- HASH is the composition and nothing more (44_hash_oneshot.md R161), from every state. That with an illegal size it is the
rejected CONSTRUCT alone is the model's choice (log 4): R160's "fail with r" against 30_encoding.md R81's expansion, which goes on. -/
def Obligations.HashIsTheComposition : Prop :=
  ∀ (n : Byte) (input : List Byte) (s : State),
    (1 ≤ n.toNat ∧ n.toNat ≤ 64 →
      exec (.hash n input) s =
        andThen (andThen (andThen (exec (.construct n) s) (exec (.update input))) (exec .finalize)) (exec .readDigest)) ∧
    (¬(1 ≤ n.toNat ∧ n.toNat ≤ 64) → exec (.hash n input) s = .next { s with
      engine := { s.engine with err := if s.engine.err = .ok then .badOutputSize else s.engine.err }
      outputs := .response .badOutputSize :: s.outputs })

/-- The headline: from every state, HASH completes and answers the digest of the message as a block-by-block definition gives it
(42_finalize.md R121, R124, R125, R128; 44_hash_oneshot.md R161), and leaves the state of R125. That the
transient registers are unchanged is the model's choice (log 3). -/
def Obligations.HashAnswersTheDigestOfTheMessage : Prop :=
  ∀ (n : Byte) (msg : List Byte) (s : State), 1 ≤ n.toNat → n.toNat ≤ 64 →
    ∃ t, exec (.hash n msg) s = .next t ∧
      t.outputs = (digestOf n msg).reverse.map .value ++
        .response .ok :: List.replicate msg.length (.response .ok) ++ .response .ok :: s.outputs ∧
      t.work = s.work ∧ t.pending = s.pending ∧
      t.engine.chain = finalChain n msg ∧ t.engine.t = BitVec.ofNat 128 msg.length ∧
      t.engine.finalizationFlags0 = 0xFFFFFFFFFFFFFFFF ∧ t.engine.finalizationFlags1 = 0 ∧
      (∀ a, a < 128 → t.engine.buffer.get a = (messageBlock msg (flushCount msg.length)).getD a 0x00) ∧
      t.engine.bufferLength.toNat = msg.length - 128 * flushCount msg.length ∧
      t.engine.outputSize.toNat = n.toNat ∧ t.engine.phase = .done ∧ t.engine.err = .ok

/-- Determinism (42_finalize.md R129): a computation driven word by word, with any reads, rejected CONSTRUCTs and illegal words between
its ABSORBs, from any state, ends in DONE with the digest of the absorbed bytes alone in the window, and zeros above it. -/
def Obligations.DigestDependsOnSizeAndBytesOnly : Prop :=
  ∀ (n : Byte) (acts rest : List HostAction) (s : State), 1 ≤ n.toNat → n.toNat ≤ 64 →
    (∀ a ∈ acts, (∃ r, a = .regRead r) ∨
      ∃ w, a = .cmd w ∧ decode w ≠ .finalize ∧ ∀ arg, decode w = .construct arg → ¬(1 ≤ arg.toNat ∧ arg.toNat ≤ 64)) →
    let bytes := acts.filterMap fun a =>
      match a with
      | .cmd w => (match decode w with | .absorb b => some b | _ => none)
      | _ => none
    ∃ t, runSteps (acts.length + 2)
        { s with pending := .cmd (commandWord 0x01 n) :: (acts ++ .cmd 0x0300 :: rest) } = .next t ∧
      t.pending = rest ∧ t.engine.phase = .done ∧
      ∀ j : Fin 64, t.engine.regRead (BitVec.ofNat 8 (0x40 + j.val)) = (digestOf n bytes).getD j.val 0x00

/-- The pseudo-instructions are their expansions (30_encoding.md R81; 44_hash_oneshot.md R160): the host's actions for a row, taken one
step each, have exactly the row's effect, whatever it is. Two points of `hostActions` are the model's choice (log 4): READDIGEST's reads
are in ascending order, where R81 allows any; and HASH with an illegal size is its CONSTRUCT alone, as R160's "fail with r" says, where
R81's expansion lists the later commands too. -/
def Obligations.RowsRunAsTheirHostActions : Prop :=
  ∀ (i : Instr) (acts rest : List HostAction) (s : State), i.wf = true →
    hostActions s.engine.outputSize i = some acts →
    runSteps acts.length { s with pending := acts ++ rest } = exec i { s with pending := rest }

/-! ## COMPRESS, ROUND and G -/

/-- 43_compress.md R130 with R133, R134 and R138: COMPRESS has the effect of loading `v` and `m` (steps 1 and 2), running ROUND 0 to 11
in order as instructions (steps 3 and 4) and folding `v` into the chain (step 5), and it writes the chain only. That ROUND as an
instruction acts on registers of its own, which COMPRESS leaves alone, is the model's choice (log 3). -/
def Obligations.CompressIsTwelveRounds : Prop :=
  ∀ s : State, ∃ (w₀ w : Work),
    (∀ i : Fin 8, w₀.v[i.val] = s.engine.chain[i]) ∧ (∀ i : Fin 4, w₀.v[i.val + 8] = iv[i.val]) ∧
    w₀.v[12] = iv[4] ^^^ s.engine.counter0 ∧ w₀.v[13] = iv[5] ^^^ s.engine.counter1 ∧
    w₀.v[14] = iv[6] ^^^ s.engine.finalizationFlags0 ∧ w₀.v[15] = iv[7] ^^^ s.engine.finalizationFlags1 ∧
    (∀ i : Fin 16, memRead s.engine.buffer (8 * i.val) 8 = some w₀.m[i]) ∧
    (List.finRange 12).foldl (fun o r => andThen o (exec (.round r))) (.next { s with work := w₀ }) =
      .next { s with work := w } ∧
    exec .compress s = .next { s with engine := { s.engine with
      chain := Vector.ofFn fun i : Fin 8 => s.engine.chain[i] ^^^ w.v[i.val] ^^^ w.v[i.val + 8] } }

/-- 43_compress.md R136 (and R135): ROUND(r) completes and is the eight G applications of the closed-form schedule, in order, with the
message words that SIGMA's row selects. It changes nothing but `v`. -/
def Obligations.RoundIsEightApplicationsOfG : Prop :=
  ∀ (r : Fin 12) (s : State), ∃ v, exec (.round r) s = .next { s with work := { s.work with v := v } } ∧
    (List.finRange 8).foldl (fun o (i : Fin 8) => andThen o (exec (
        let k := i.val % 4
        let d := i.val / 4
        .g (Fin.ofNat 16 k) (Fin.ofNat 16 (4 + (k + d) % 4)) (Fin.ofNat 16 (8 + (k + 2 * d) % 4))
          (Fin.ofNat 16 (12 + (k + 3 * d) % 4)) s.work.m[sigma[r][2 * i.val]] s.work.m[sigma[r][2 * i.val + 1]])))
      (.next s) = .next { s with work := { s.work with v := v } }

/-- 43_compress.md R137: with four distinct indices, G completes; the four words take the values of its twelve statements, the other
twelve and everything else are unchanged. -/
def Obligations.MixingFunctionResult : Prop :=
  ∀ (a b c d : Fin 16) (x y : Word) (s : State), [a, b, c, d].Nodup →
    ∃ v : Vector Word 16, exec (.g a b c d x y) s = .next { s with work := { s.work with v := v } } ∧
      (∀ k : Fin 16, k ∉ [a, b, c, d] → v[k] = s.work.v[k]) ∧
      let a₁ := s.work.v[a] + s.work.v[b] + x
      let d₁ := (s.work.v[d] ^^^ a₁).rotateRight 32
      let c₁ := s.work.v[c] + d₁
      let b₁ := (s.work.v[b] ^^^ c₁).rotateRight 24
      v[a] = a₁ + b₁ + y ∧
      v[d] = (d₁ ^^^ v[a]).rotateRight 16 ∧
      v[c] = c₁ + v[d] ∧
      v[b] = (b₁ ^^^ v[c]).rotateRight 63

/-- "G is a bijection on `(v[a..d])` for fixed `x, y`" (43_compress.md R137): every target vector is reached from exactly one. -/
def Obligations.MixingFunctionIsABijection : Prop :=
  ∀ (a b c d : Fin 16) (x y : Word), [a, b, c, d].Nodup →
    ∀ v' : Vector Word 16, ∃ v : Vector Word 16, mix v a b c d x y = v' ∧ ∀ u, mix u a b c d x y = v' → u = v

/-- Order freedom (43_compress.md R142): two applications of G on disjoint quadruples may be done in either order. -/
def Obligations.DisjointApplicationsOfGCommute : Prop :=
  ∀ (a b c d a' b' c' d' : Fin 16) (x y x' y' : Word) (s : State), [a, b, c, d, a', b', c', d'].Nodup →
    andThen (exec (.g a b c d x y) s) (exec (.g a' b' c' d' x' y')) =
      andThen (exec (.g a' b' c' d' x' y') s) (exec (.g a b c d x y))

/-- 43_compress.md R141. -/
def Obligations.SigmaRowsArePermutations : Prop :=
  (∀ (r : Fin 12) (x : Fin 16), ∃ j : Fin 16, sigma[r][j] = x ∧ ∀ k : Fin 16, sigma[r][k] = x → k = j) ∧
  (∀ j : Fin 16, sigma[0][j] = j) ∧ sigma[10] = sigma[0] ∧ sigma[11] = sigma[1]

/-- 00_scope.md R7: bit `i` of `rotr64(x, n)` is bit `(i + n) mod 64` of `x`. -/
def Obligations.RotationMovesEveryBit : Prop :=
  ∀ (x : Word) (n i : Nat), 0 < n → n < 64 → i < 64 → (rotr64 x n).getLsbD i = x.getLsbD ((i + n) % 64)

/-! ## Memory, counter and the read port -/

/-- 20_memory.md R53: `MemWrite` of `n` bytes stores byte `k` of the value at `addr + k`, changes no other byte, and keeps the canonical
form. -/
def Obligations.MemWriteStoresLittleEndian : Prop :=
  ∀ (m : Buffer) (addr n : Nat) (v : BitVec (8 * n)), m.wf = true → addr + n ≤ 128 →
    ∃ m' : Buffer, memWrite m addr n v = some m' ∧ m'.wf = true ∧
      (∀ k, k < n → m'.get (addr + k) = v.extractLsb' (8 * k) 8) ∧
      (∀ a, a < addr ∨ addr + n ≤ a → m'.get a = m.get a)

/-- 20_memory.md R54: `m[i] = MemRead(8*i, 8)`, and the byte at address `a` is bits `[8(a mod 8)+7 : 8(a mod 8)]` of `m[a div 8]`. -/
def Obligations.MessageWordsAreLittleEndian : Prop :=
  ∀ m : Buffer,
    (∀ i : Fin 16, memRead m (8 * i.val) 8 = some (messageWords m)[i]) ∧
    (∀ a : Fin 128, ((messageWords m)[a.val / 8]'(by omega)).extractLsb' (8 * (a.val % 8)) 8 = m.get a.val)

/-- What `MemRead` returns (20_memory.md R52): each byte of the value is the byte at its address; outside the space there is none. -/
def Obligations.MemReadReturnsTheBytes : Prop :=
  ∀ (m : Buffer) (addr n : Nat),
    (addr + n ≤ 128 → ∃ v, memRead m addr n = some v ∧ ∀ k, k < n → v.extractLsb' (8 * k) 8 = m.get (addr + k)) ∧
    (128 < addr + n → memRead m addr n = none)

/-- 10_state.md R27: advancing the two counter words by `k` is the addition of `k` to one 128-bit integer, modulo 2^128. -/
def Obligations.CounterIsOne128BitInteger : Prop :=
  ∀ (e : Engine) (k : BitVec 8), (e.advanceCounter k).t = e.t + k.setWidth 128 ∧
    (e.advanceCounter k).counter0 = e.counter0 + k.setWidth 64 ∧
    e.advanceCounter k = { e with counter0 := (e.advanceCounter k).counter0, counter1 := (e.advanceCounter k).counter1 }

/-- STATUS (10_state.md R33). -/
def Obligations.StatusShowsPhaseAndErr : Prop :=
  ∀ e : Engine,
    (e.regRead 0x00).extractLsb' 0 2 = e.phase.bits ∧ (e.regRead 0x00).extractLsb' 2 3 = e.err.bits ∧
    (e.regRead 0x00).extractLsb' 5 3 = 0#3 ∧
    e.regRead 0x00 = (e.err.bits.setWidth 8 <<< 2) ||| e.phase.bits.setWidth 8

/-- The DIGEST window (10_state.md R34): its value on every engine; in DONE every word but an accepted CONSTRUCT leaves the chain, the
phase and the window as they were; and an accepted CONSTRUCT goes to ACTIVE and blanks the window. In DONE every word completes. -/
def Obligations.DigestWindowIsAViewOfTheChain : Prop :=
  (∀ (e : Engine) (j : Fin 64), e.regRead (BitVec.ofNat 8 (0x40 + j.val)) =
    if e.phase = .done ∧ j.val < e.outputSize.toNat then
      ((e.chain[j.val / 8]'(by omega)) >>> (8 * (j.val % 8))).setWidth 8
    else 0x00) ∧
  (∀ (w : CmdWord) (s : State), s.engine.phase = .done →
    (∀ arg, decode w = .construct arg → ¬(1 ≤ arg.toNat ∧ arg.toNat ≤ 64)) →
    ∃ t, exec (decode w) s = .next t ∧ t.engine.chain = s.engine.chain ∧ t.engine.phase = .done ∧
      ∀ j : Fin 64, t.engine.regRead (BitVec.ofNat 8 (0x40 + j.val)) = s.engine.regRead (BitVec.ofNat 8 (0x40 + j.val))) ∧
  (∀ (w : CmdWord) (arg : Byte) (s : State), s.engine.phase = .done →
    decode w = .construct arg → 1 ≤ arg.toNat → arg.toNat ≤ 64 →
    ∃ t, exec (decode w) s = .next t ∧ t.engine.phase = .active ∧
      ∀ j : Fin 64, t.engine.regRead (BitVec.ofNat 8 (0x40 + j.val)) = 0x00)

/-- Reserved registers (10_state.md R35): the read answers 0x00 and changes nothing. -/
def Obligations.ReservedRegistersReadZero : Prop :=
  ∀ (s : State) (n : Byte), (0x01 ≤ n.toNat ∧ n.toNat ≤ 0x3F) ∨ (0x80 ≤ n.toNat ∧ n.toNat ≤ 0xFF) →
    s.engine.regRead n = 0x00 ∧ takeAction (.regRead n) s = .next { s with outputs := .value 0x00 :: s.outputs }

/-- 20_memory.md R57: a read through the port answers, changes no state of the engine, and answers the same again. -/
def Obligations.ReadsHaveNoSideEffect : Prop :=
  ∀ (n : Byte) (s : State), ∃ t, takeAction (.regRead n) s = .next t ∧
    t = { s with outputs := .value (s.engine.regRead n) :: s.outputs } ∧
    takeAction (.regRead n) t = .next { t with outputs := .value (s.engine.regRead n) :: t.outputs }

/-- The digest stays readable (42_finalize.md R125; 70_reset_and_hazards.md R214): from DONE, any run of reads and of words other than
an accepted CONSTRUCT ends with every register but `err` as it was. -/
def Obligations.DigestStaysUntilConstructOrReset : Prop :=
  ∀ (acts : List HostAction) (s : State), s.engine.phase = .done →
    (∀ a ∈ acts, (∃ r, a = .regRead r) ∨
      ∃ w, a = .cmd w ∧ ∀ arg, decode w = .construct arg → ¬(1 ≤ arg.toNat ∧ arg.toNat ≤ 64)) →
    ∃ t, runSteps acts.length { s with pending := acts } = .next t ∧ t.pending = [] ∧ t.work = s.work ∧
      t.engine = { s.engine with err := t.engine.err } ∧
      ∀ j : Fin 64, t.engine.regRead (BitVec.ofNat 8 (0x40 + j.val)) = s.engine.regRead (BitVec.ofNat 8 (0x40 + j.val))

/-! ## Reset and the whole machine -/

/-- 10_state.md R39: the state after reset, and what the ports show of it. -/
def Obligations.ResetValues : Prop :=
  let e := State.reset.engine
  (∀ i : Fin 8, e.chain[i] = 0) ∧ e.counter0 = 0 ∧ e.counter1 = 0 ∧ e.finalizationFlags0 = 0 ∧ e.finalizationFlags1 = 0 ∧
  (∀ a, e.buffer.get a = 0x00) ∧ e.bufferLength = 0 ∧ e.outputSize = 0 ∧ e.phase = .idle ∧ e.phase.bits = 0 ∧ e.err = .ok ∧
  e.err.bits = 0 ∧ e.regRead 0x00 = 0x00 ∧
  ∀ j : Fin 64, e.regRead (BitVec.ofNat 8 (0x40 + j.val)) = 0x00

/-- The invariant of 10_state.md R36 holds right after reset. -/
def Obligations.ResetMeetsTheInvariant : Prop := State.reset.Inv

/-- 10_state.md R36 (its items about one state) and the canonical form of the buffer: every step from every state that meets them keeps
them, whatever the host does. -/
def Obligations.EveryStepKeepsTheInvariant : Prop :=
  ∀ s t : State, s.Inv → step s = .next t → t.Inv

/-- Nothing the host can do stops a machine that meets the invariant (70_reset_and_hazards.md R222; 60_exceptions.md R180): every run
of any length answers a next state. -/
def Obligations.NoRunStops : Prop :=
  ∀ (k : Nat) (s : State), s.Inv → ∃ t, runSteps k s = .next t ∧ t.Inv

/-- 10_state.md R31: the encodings of `phase` and its only transitions. -/
def Obligations.PhaseTransitionsAreTheTables : Prop :=
  (Phase.idle.bits = 0 ∧ Phase.active.bits = 1 ∧ Phase.done.bits = 2) ∧
  ∀ s t : State, step s = .next t → t.engine.phase =
    match s.pending with
    | .reset :: _ => .idle
    | .cmd w :: _ =>
      (match decode w with
      | .construct arg => if 1 ≤ arg.toNat ∧ arg.toNat ≤ 64 then .active else s.engine.phase
      | .finalize => if s.engine.phase = .active then .done else s.engine.phase
      | _ => s.engine.phase)
    | _ => s.engine.phase

/-- Who writes what (10_state.md R21, R25, R26, R30, R40), over every step that is neither a reset nor an accepted CONSTRUCT: the chain
and the counter change only in ACTIVE, by an ABSORB that finds a full block or by FINALIZE; the flags only by FINALIZE in ACTIVE; the
buffer and its length only in ACTIVE, by ABSORB, or, the buffer alone, by FINALIZE; the size never. -/
def Obligations.RegistersChangeOnlyByTheirWriters : Prop :=
  ∀ s t : State, step s = .next t → (∀ rest, s.pending ≠ .reset :: rest) →
    (∀ w arg rest, s.pending = .cmd w :: rest → decode w = .construct arg → ¬(1 ≤ arg.toNat ∧ arg.toNat ≤ 64)) →
    let finalizes := s.engine.phase = .active ∧ ∃ w rest, s.pending = .cmd w :: rest ∧ decode w = .finalize
    let absorbs := s.engine.phase = .active ∧ ∃ w b rest, s.pending = .cmd w :: rest ∧ decode w = .absorb b
    t.work = s.work ∧ t.engine.outputSize = s.engine.outputSize ∧
    t.engine.finalizationFlags1 = s.engine.finalizationFlags1 ∧
    (t.engine.finalizationFlags0 ≠ s.engine.finalizationFlags0 → finalizes) ∧
    (t.engine.chain ≠ s.engine.chain ∨ t.engine.counter0 ≠ s.engine.counter0 ∨ t.engine.counter1 ≠ s.engine.counter1 →
      finalizes ∨ (absorbs ∧ s.engine.bufferLength = 128)) ∧
    (t.engine.bufferLength ≠ s.engine.bufferLength → absorbs) ∧
    (t.engine.buffer ≠ s.engine.buffer → absorbs ∨ finalizes)

/-- 10_state.md R36 item 6, "the counter only ever increases": over every step within one computation (no reset, no accepted
CONSTRUCT), while the count is not about to wrap. -/
def Obligations.CounterNeverDecreases : Prop :=
  ∀ s t : State, step s = .next t → (∀ rest, s.pending ≠ .reset :: rest) →
    (∀ w arg rest, s.pending = .cmd w :: rest → decode w = .construct arg → ¬(1 ≤ arg.toNat ∧ arg.toNat ≤ 64)) →
    s.engine.t.toNat + 256 ≤ 2 ^ 128 → s.engine.t.toNat ≤ t.engine.t.toNat

/-! ## Several engines, host software -/

/-- Engines share nothing mutable (60_exceptions.md R192; 10_state.md R41): a step of one leaves every other as it was and is that
engine's own step; and steps of two different engines may be taken in either order. -/
def Obligations.EnginesAreIndependent : Prop :=
  ∀ (c : Config) (i : Fin c.nEngines) (sys sys' : System c), sys.stepAt i = .next sys' →
    step sys[i] = .next sys'[i] ∧ (∀ j : Fin c.nEngines, j ≠ i → sys'[j] = sys[j]) ∧
    ∀ (j : Fin c.nEngines) (sys'' : System c), j ≠ i → sys.runOrder [i, j] = .next sys'' → sys.runOrder [j, i] = .next sys''

/-- HEX (44_hash_oneshot.md R163): byte `j` becomes characters `2j`, the digit of its high nibble, and `2j + 1`, of its low one. -/
def Obligations.HexHasTwoDigitsAByte : Prop :=
  ∀ bytes : List Byte, (hexEncode bytes).length = 2 * bytes.length ∧
    ∀ (j : Nat) (h : j < bytes.length),
      (hexEncode bytes)[2 * j]? = "0123456789abcdef".toList[bytes[j].toNat / 16]? ∧
      (hexEncode bytes)[2 * j + 1]? = "0123456789abcdef".toList[bytes[j].toNat % 16]?

/-! ## The expansions of 30_encoding.md R81 -/

/-- 30_encoding.md R81: UPDATE is its expansion; HASH with a legal size is its expansion; and HASH's whole expansion, taken as host
actions one step each, has the effect of its rows one after the other, with any size and from every state, whether that is a next state
or a stop. The ascending order of READDIGEST's reads, and their number after a rejected CONSTRUCT, are the model's choice (log 4). -/
def Obligations.ExpansionsRunTheirRows : Prop :=
  (∀ (span : List Byte) (s : State), execAll (expansion (.update span)) s = exec (.update span) s) ∧
  (∀ (n : Byte) (input : List Byte) (s : State), 1 ≤ n.toNat → n.toNat ≤ 64 →
    execAll (expansion (.hash n input)) s = exec (.hash n input) s) ∧
  (∀ (n : Byte) (input : List Byte) (rest : List HostAction) (s : State),
    runSteps (hashExpansionActions s.engine.outputSize n input).length
        { s with pending := hashExpansionActions s.engine.outputSize n input ++ rest } =
      execAll (expansion (.hash n input)) { s with pending := rest })

/-- What HASH's expansion does when its CONSTRUCT is rejected (30_encoding.md R81; 60_exceptions.md R172, R178): in IDLE and DONE every
later command is still issued and is rejected for its phase, and the window is read; in ACTIVE the computation in progress goes on, as
UPDATE, FINALIZE and READDIGEST alone would take it, but for `err` and the recorded rejection. The number and the order of the reads
are the model's choice (log 4). -/
def Obligations.HashExpansionGoesOnAfterARejection : Prop :=
  ∀ (n : Byte) (input : List Byte) (s : State), ¬(1 ≤ n.toNat ∧ n.toNat ≤ 64) →
    let e : Engine := { s.engine with err := if s.engine.err = .ok then .badOutputSize else s.engine.err }
    let reads := ((List.range s.engine.outputSize.toNat).map fun j =>
      PortOutput.value (s.engine.regRead (BitVec.ofNat 8 (0x40 + j)))).reverse
    (s.engine.phase = .idle → execAll (expansion (.hash n input)) s = .next { s with
      engine := e
      outputs := reads ++ List.replicate (input.length + 1) (.response .notConstructed) ++ .response .badOutputSize :: s.outputs }) ∧
    (s.engine.phase = .done → execAll (expansion (.hash n input)) s = .next { s with
      engine := e
      outputs := reads ++ List.replicate (input.length + 1) (.response .alreadyFinalized) ++ .response .badOutputSize :: s.outputs }) ∧
    (s.engine.phase = .active → s.engine.bufferLength.toNat ≤ 128 →
      ∃ (u : State) (answers : List PortOutput),
        andThen (andThen (exec (.update input) s) (exec .finalize)) (exec .readDigest) = .next u ∧
        u.engine.phase = .done ∧ u.outputs = answers ++ s.outputs ∧
        execAll (expansion (.hash n input)) s = .next { u with
          engine := { u.engine with err := e.err }
          outputs := answers ++ .response .badOutputSize :: s.outputs })
end

