-- ==== Sys2Proof/Laws/Buffer.lean ====
section
/-! SUPPORT. The block buffer: read after write, and the canonical form that every operation keeps. -/

namespace Sys2Proof.Machine

@[simp] theorem Buffer.get_nil (a : Nat) : Buffer.get [] a = 0 := rfl

/-- A read below every listed address. -/
theorem Buffer.get_of_lt : ∀ (m : Buffer) (lo a : Nat), Buffer.wfFrom lo m = true → a < lo → Buffer.get m a = 0
  | [], _, _, _, _ => rfl
  | (k, c) :: rest, lo, a, h, ha => by
    simp only [Buffer.wfFrom, Bool.and_eq_true, decide_eq_true_eq] at h
    rw [Buffer.get, if_neg (by omega), Buffer.get_of_lt rest (k + 1) a h.2 (by omega)]

/-- A write leaves every other address alone. -/
theorem Buffer.get_put_other : ∀ (m : Buffer) (a x : Nat) (b : Byte), x ≠ a → (Buffer.put m a b).get x = Buffer.get m x
  | [], a, x, b, h => by
    unfold Buffer.put; split <;> simp [Buffer.get, h]
  | (k, c) :: rest, a, x, b, h => by
    unfold Buffer.put
    split
    · split <;> simp [Buffer.get, h]
    · split
      · subst a
        split <;> simp [Buffer.get, h]
      · simp only [Buffer.get, Buffer.get_put_other rest a x b h]

/-- A read after a write to the same address gives the byte written. -/
theorem Buffer.get_put_same : ∀ (m : Buffer) (lo a : Nat) (b : Byte), Buffer.wfFrom lo m = true → (Buffer.put m a b).get a = b
  | [], _, a, b, _ => by
    unfold Buffer.put; split <;> simp_all [Buffer.get]
  | (k, c) :: rest, lo, a, b, h => by
    have hr : Buffer.wfFrom (k + 1) rest = true := by
      simp only [Buffer.wfFrom, Bool.and_eq_true] at h; exact h.2
    unfold Buffer.put
    split
    · next hk =>
      split
      · next hb => rw [Buffer.get, if_neg (by omega), Buffer.get_of_lt rest (k + 1) a hr (by omega), hb]
      · simp [Buffer.get]
    · split
      · next hk =>
        subst hk
        split
        · next hb => rw [Buffer.get_of_lt rest (a + 1) a hr (by omega), hb]
        · simp [Buffer.get]
      · next hk => rw [Buffer.get, if_neg hk, Buffer.get_put_same rest (k + 1) a b hr]

theorem Buffer.wfFrom_mono (m : Buffer) (lo lo' : Nat) (h : lo' ≤ lo) (hm : Buffer.wfFrom lo m = true) :
    Buffer.wfFrom lo' m = true := by
  cases m with
  | nil => rfl
  | cons x rest =>
    obtain ⟨k, c⟩ := x
    simp only [Buffer.wfFrom, Bool.and_eq_true, decide_eq_true_eq] at hm ⊢
    exact ⟨⟨⟨by omega, hm.1.1.2⟩, hm.1.2⟩, hm.2⟩

theorem Buffer.put_wfFrom : ∀ (m : Buffer) (lo a : Nat) (b : Byte), Buffer.wfFrom lo m = true → lo ≤ a → a < 128 →
    Buffer.wfFrom lo (Buffer.put m a b) = true
  | [], lo, a, b, _, hl, ha => by
    unfold Buffer.put; split <;> simp_all [Buffer.wfFrom]
  | (k, c) :: rest, lo, a, b, h, hl, ha => by
    have hh := h
    simp only [Buffer.wfFrom, Bool.and_eq_true, decide_eq_true_eq] at hh
    unfold Buffer.put
    split
    · next hk =>
      split
      · exact h
      · next hb =>
        simp only [Buffer.wfFrom, Bool.and_eq_true, decide_eq_true_eq]
        exact ⟨⟨⟨hl, ha⟩, hb⟩, ⟨⟨by omega, hh.1.1.2⟩, hh.1.2⟩, hh.2⟩
    · next hk =>
      split
      · split
        · exact Buffer.wfFrom_mono rest (k + 1) lo (by omega) hh.2
        · next hb =>
          simp only [Buffer.wfFrom, Bool.and_eq_true, decide_eq_true_eq]
          exact ⟨⟨⟨hh.1.1.1, hh.1.1.2⟩, hb⟩, hh.2⟩
      · next hne =>
        simp only [Buffer.wfFrom, Bool.and_eq_true, decide_eq_true_eq]
        exact ⟨⟨⟨hh.1.1.1, hh.1.1.2⟩, hh.1.2⟩, Buffer.put_wfFrom rest (k + 1) a b hh.2 (by omega) ha⟩

/-- Every write inside the space keeps the canonical form. -/
theorem Buffer.put_wf (m : Buffer) (a : Nat) (b : Byte) (h : m.wf = true) (ha : a < 128) : (m.put a b).wf = true :=
  Buffer.put_wfFrom m 0 a b h (Nat.zero_le a) ha

/-- The whole effect of a write on reads. -/
theorem Buffer.get_put (m : Buffer) (a x : Nat) (b : Byte) (h : m.wf = true) :
    (m.put a b).get x = if x = a then b else m.get x := by
  split
  · next hx => rw [hx, Buffer.get_put_same m 0 a b h]
  · next hx => exact Buffer.get_put_other m a x b hx

/-- A canonical buffer reads 0x00 outside its 128 bytes. -/
theorem Buffer.get_of_ge : ∀ (m : Buffer) (lo a : Nat), Buffer.wfFrom lo m = true → 128 ≤ a → Buffer.get m a = 0
  | [], _, _, _, _ => rfl
  | (k, c) :: rest, lo, a, h, ha => by
    simp only [Buffer.wfFrom, Bool.and_eq_true, decide_eq_true_eq] at h
    rw [Buffer.get, if_neg (by omega), Buffer.get_of_ge rest (k + 1) a h.2 ha]

/-- Equal reads, equal memories: the canonical form has one list for each contents. -/
theorem Buffer.ext_get : ∀ (m m' : Buffer) (lo : Nat), Buffer.wfFrom lo m = true → Buffer.wfFrom lo m' = true →
    (∀ a, Buffer.get m a = Buffer.get m' a) → m = m'
  | [], [], _, _, _, _ => rfl
  | [], (k, c) :: rest, _, _, h', hg => by
    simp only [Buffer.wfFrom, Bool.and_eq_true, decide_eq_true_eq] at h'
    have := hg k
    simp [Buffer.get] at this
    exact absurd this.symm h'.1.2
  | (k, c) :: rest, [], _, h, _, hg => by
    simp only [Buffer.wfFrom, Bool.and_eq_true, decide_eq_true_eq] at h
    have := hg k
    simp [Buffer.get] at this
    exact absurd this h.1.2
  | (k, c) :: rest, (k', c') :: rest', lo, h, h', hg => by
    simp only [Buffer.wfFrom, Bool.and_eq_true, decide_eq_true_eq] at h h'
    have hk : k = k' := by
      rcases Nat.lt_trichotomy k k' with hlt | heq | hgt
      · have := hg k
        rw [Buffer.get, if_pos rfl, Buffer.get, if_neg (by omega),
          Buffer.get_of_lt rest' (k' + 1) k h'.2 (by omega)] at this
        exact absurd this h.1.2
      · exact heq
      · have := hg k'
        rw [Buffer.get, if_neg (by omega), Buffer.get_of_lt rest (k + 1) k' h.2 (by omega),
          Buffer.get, if_pos rfl] at this
        exact absurd this.symm h'.1.2
    subst hk
    have hc : c = c' := by simpa [Buffer.get] using hg k
    subst hc
    have hr : rest = rest' := by
      refine Buffer.ext_get rest rest' (k + 1) h.2 h'.2 fun a => ?_
      by_cases ha : a = k
      · rw [Buffer.get_of_lt rest (k + 1) a h.2 (by omega), Buffer.get_of_lt rest' (k + 1) a h'.2 (by omega)]
      · have := hg a
        rwa [Buffer.get, if_neg ha, Buffer.get, if_neg ha] at this
    rw [hr]

/-! ## a run of bytes -/

theorem Buffer.putBytes_wf : ∀ (data : List Byte) (m : Buffer) (addr : Nat), m.wf = true → addr + data.length ≤ 128 →
    (m.putBytes addr data).wf = true
  | [], _, _, h, _ => h
  | b :: rest, m, addr, h, hl => by
    simp only [List.length_cons] at hl
    exact Buffer.putBytes_wf rest (m.put addr b) (addr + 1) (Buffer.put_wf m addr b h (by omega)) (by omega)

theorem Buffer.get_putBytes : ∀ (data : List Byte) (m : Buffer) (addr x : Nat), m.wf = true → addr + data.length ≤ 128 →
    (m.putBytes addr data).get x = if addr ≤ x ∧ x < addr + data.length then data.getD (x - addr) 0 else m.get x
  | [], m, addr, x, _, _ => by
    rw [if_neg (by simp), Buffer.putBytes]
  | b :: rest, m, addr, x, h, hl => by
    simp only [List.length_cons] at hl ⊢
    rw [Buffer.putBytes, Buffer.get_putBytes rest (m.put addr b) (addr + 1) x (Buffer.put_wf m addr b h (by omega)) (by omega),
      Buffer.get_put m addr x b h]
    by_cases h1 : x = addr
    · subst h1; rw [if_neg (by omega), if_pos rfl, if_pos (by omega)]; simp
    · rw [if_neg h1]
      by_cases h2 : addr + 1 ≤ x ∧ x < addr + 1 + rest.length
      · rw [if_pos h2, if_pos (by omega)]
        obtain ⟨d, rfl⟩ : ∃ d, x = addr + 1 + d := ⟨x - (addr + 1), by omega⟩
        have e1 : addr + 1 + d - addr = d + 1 := by omega
        rw [e1]; simp
      · rw [if_neg h2, if_neg (by omega)]

/-! ## the fill -/

theorem Buffer.fill_wf : ∀ (as : List Nat) (m : Buffer), m.wf = true → (∀ a ∈ as, a < 128) →
    Buffer.wf (as.foldl (fun m a => Buffer.put m a 0x00) m) = true
  | [], _, h, _ => h
  | a :: as, m, h, ha =>
    Buffer.fill_wf as (m.put a 0x00) (Buffer.put_wf m a 0x00 h (ha a (by simp))) fun x hx => ha x (by simp [hx])

theorem Buffer.get_fill : ∀ (as : List Nat) (m : Buffer) (x : Nat), m.wf = true → (∀ a ∈ as, a < 128) →
    Buffer.get (as.foldl (fun m a => Buffer.put m a 0x00) m) x = if x ∈ as then 0x00 else m.get x
  | [], _, _, _, _ => by simp
  | a :: as, m, x, h, ha => by
    rw [List.foldl_cons, Buffer.get_fill as (m.put a 0x00) x (Buffer.put_wf m a 0x00 h (ha a (by simp)))
      fun y hy => ha y (by simp [hy]), Buffer.get_put m a x 0x00 h]
    by_cases h1 : x ∈ as <;> by_cases h2 : x = a <;> simp [h1, h2]

/-- A fill leaves every other address alone, canonical or not. -/
theorem Buffer.get_fill_other : ∀ (as : List Nat) (m : Buffer) (x : Nat), x ∉ as →
    Buffer.get (as.foldl (fun m a => Buffer.put m a 0x00) m) x = m.get x
  | [], _, _, _ => rfl
  | a :: as, m, x, h => by
    simp only [List.mem_cons, not_or] at h
    rw [List.foldl_cons, Buffer.get_fill_other as _ x h.2, Buffer.get_put_other m a x 0x00 h.1]

theorem Engine.mem_fillAddresses (e : Engine) (a : Nat) :
    a ∈ e.fillAddresses ↔ e.bufferLength.toNat ≤ a ∧ a < 128 := by
  unfold Engine.fillAddresses
  rw [List.mem_range'_1]
  omega

/-- What FINALIZE's fill leaves to read. -/
theorem Engine.pad_get (e : Engine) (a : Nat) (h : e.buffer.wf = true) :
    e.pad.buffer.get a = if e.bufferLength.toNat ≤ a ∧ a < 128 then 0x00 else e.buffer.get a := by
  have := Buffer.get_fill e.fillAddresses e.buffer a h fun x hx => ((e.mem_fillAddresses x).1 hx).2
  simp only [e.mem_fillAddresses] at this
  exact this

theorem Engine.pad_wf (e : Engine) (h : e.buffer.wf = true) : e.pad.buffer.wf = true :=
  Buffer.fill_wf e.fillAddresses e.buffer h fun x hx => ((e.mem_fillAddresses x).1 hx).2

/-! ## MemWrite of one byte, and the append -/

theorem memWrite_one (m : Buffer) (addr : Nat) (b : Byte) :
    memWrite m addr 1 b = if addr + 1 ≤ 128 then some (m.put addr b) else none := by
  simp [memWrite, Buffer.writeLE]

theorem memWrite_one_in (m : Buffer) (addr : Nat) (b : Byte) (h : addr < 128) :
    memWrite m addr 1 b = some (m.put addr b) := by
  rw [memWrite_one, if_pos (by omega)]

/-- Everything the append can do. -/
theorem Engine.append_eq (b : Byte) (e : Engine) :
    e.append b = if e.bufferLength.toNat < 128 then
      some { e with buffer := e.buffer.put e.bufferLength.toNat b, bufferLength := e.bufferLength + 1 } else none := by
  unfold Engine.append Engine.appendAddress
  rw [memWrite_one]
  by_cases h : e.bufferLength.toNat < 128
  · rw [if_pos (by omega), if_pos h]; rfl
  · rw [if_neg (by omega), if_neg h]; rfl

end Sys2Proof.Machine
end

