-- ==== Sys2Proof/Laws/Encoding.lean ====
section
/-! SUPPORT. The fields of a command word as numbers, and the decoder's answers as conditions on them. -/

namespace Sys2Proof

theorem opField_toNat (w : CmdWord) : (opField w).toNat = w.toNat / 256 := by
  have := w.isLt
  simp only [opField, BitVec.extractLsb'_toNat, Nat.shiftRight_eq_div_pow]
  omega

theorem argField_toNat (w : CmdWord) : (argField w).toNat = w.toNat % 256 := by
  simp [argField, BitVec.extractLsb'_toNat]

theorem commandWord_toNat (op arg : Byte) : (commandWord op arg).toNat = op.toNat * 256 + arg.toNat := by
  unfold commandWord
  rw [BitVec.toNat_append, ← Nat.shiftLeft_add_eq_or_of_lt (BitVec.isLt arg), Nat.shiftLeft_eq]

@[simp] theorem opField_commandWord (op arg : Byte) : opField (commandWord op arg) = op := by
  apply BitVec.eq_of_toNat_eq
  rw [opField_toNat, commandWord_toNat]
  have := arg.isLt
  omega

@[simp] theorem argField_commandWord (op arg : Byte) : argField (commandWord op arg) = arg := by
  apply BitVec.eq_of_toNat_eq
  rw [argField_toNat, commandWord_toNat]
  have := arg.isLt
  omega

/-- A word is its two fields. -/
theorem commandWord_fields (w : CmdWord) : commandWord (opField w) (argField w) = w := by
  apply BitVec.eq_of_toNat_eq
  rw [commandWord_toNat, opField_toNat, argField_toNat]
  omega

/-- The mask 0xFF00 keeps the opcode. -/
theorem and_opcode_mask (w : CmdWord) : w &&& 0xFF00#16 = commandWord (opField w) 0 := by
  have h : w &&& 0xFF00#16 = (w >>> 8) <<< 8 := by
    ext i hi
    interval_cases i <;> simp
  apply BitVec.eq_of_toNat_eq
  have := w.isLt
  rw [h, commandWord_toNat, opField_toNat, BitVec.toNat_shiftLeft, BitVec.toNat_ushiftRight, Nat.shiftRight_eq_div_pow,
    Nat.shiftLeft_eq]
  simp
  omega

theorem commandWord_inj {op arg op' arg' : Byte} : commandWord op arg = commandWord op' arg' ↔ op = op' ∧ arg = arg' := by
  constructor
  · intro h
    exact ⟨by simpa using congrArg opField h, by simpa using congrArg argField h⟩
  · rintro ⟨rfl, rfl⟩; rfl

/-- The three command rows' match and mask (30_encoding.md R72) say what R79's conditions say. -/
theorem isIllegalWord_iff (w : CmdWord) :
    isIllegalWord w = true ↔ opField w ≠ 1 ∧ opField w ≠ 2 ∧ ¬(opField w = 3 ∧ argField w = 0) := by
  have h1 : w &&& 0xFF00#16 = 0x0100#16 ↔ opField w = 1 := by
    rw [and_opcode_mask, show (0x0100#16 : CmdWord) = commandWord 1 0 by decide, commandWord_inj]; simp
  have h2 : w &&& 0xFF00#16 = 0x0200#16 ↔ opField w = 2 := by
    rw [and_opcode_mask, show (0x0200#16 : CmdWord) = commandWord 2 0 by decide, commandWord_inj]; simp
  have h3 : w &&& 0xFFFF#16 = 0x0300#16 ↔ opField w = 3 ∧ argField w = 0 := by
    have hm : w &&& 0xFFFF#16 = w := by
      have : (0xFFFF#16 : CmdWord) = BitVec.allOnes 16 := by decide
      rw [this, BitVec.and_allOnes]
    rw [hm, ← commandWord_inj, commandWord_fields, show (0x0300#16 : CmdWord) = commandWord 3 0 by decide]
  simp [isIllegalWord, h1, h2, h3, and_assoc]

theorem decode_of_op1 (w : CmdWord) (h : opField w = 1) : decode w = .construct (argField w) := by
  simp only [decode]; rw [if_pos h]

theorem decode_of_op2 (w : CmdWord) (h : opField w = 2) : decode w = .absorb (argField w) := by
  simp only [decode]; rw [if_neg (by rw [h]; decide), if_pos h]

theorem decode_of_finalize (w : CmdWord) (h : opField w = 3) (ha : argField w = 0) : decode w = .finalize := by
  simp only [decode]; rw [if_neg (by rw [h]; decide), if_neg (by rw [h]; decide), if_pos ⟨h, ha⟩]

theorem decode_of_illegal (w : CmdWord) (h : isIllegalWord w = true) : decode w = .illegal w := by
  obtain ⟨h1, h2, h3⟩ := (isIllegalWord_iff w).1 h
  simp only [decode]; rw [if_neg h1, if_neg h2, if_neg h3]

end Sys2Proof
end

