-- ==== Sys2Proof/Laws/State.lean ====
section
/-! SUPPORT. One lemma per field per update of State and Engine, all true by rfl. -/

namespace Sys2Proof.Machine

variable (s : State) (e : Engine) (code : Code) (n : Byte) (k : BitVec 8) (w : CmdWord)

/-! ## respond, accept, reject -/

@[simp] theorem State.respond_engine : (s.respond code).engine = s.engine := rfl
@[simp] theorem State.respond_work : (s.respond code).work = s.work := rfl
@[simp] theorem State.respond_pending : (s.respond code).pending = s.pending := rfl
@[simp] theorem State.respond_outputs : (s.respond code).outputs = .response code :: s.outputs := rfl
@[simp] theorem State.accept_engine : (s.accept e).engine = e := rfl
@[simp] theorem State.accept_work : (s.accept e).work = s.work := rfl
@[simp] theorem State.accept_pending : (s.accept e).pending = s.pending := rfl
@[simp] theorem State.accept_outputs : (s.accept e).outputs = .response .ok :: s.outputs := rfl
@[simp] theorem State.reject_engine : (s.reject code).engine = s.engine.latchErr code := rfl
@[simp] theorem State.reject_work : (s.reject code).work = s.work := rfl
@[simp] theorem State.reject_pending : (s.reject code).pending = s.pending := rfl
@[simp] theorem State.reject_outputs : (s.reject code).outputs = .response code :: s.outputs := rfl
@[simp] theorem State.accept_lastResponse : (s.accept e).lastResponse = some .ok := rfl
@[simp] theorem State.reject_lastResponse : (s.reject code).lastResponse = some code := rfl

/-! ## the read port, reset, presenting a word -/

@[simp] theorem State.readRegister_engine : (s.readRegister n).engine = s.engine := rfl
@[simp] theorem State.readRegister_work : (s.readRegister n).work = s.work := rfl
@[simp] theorem State.readRegister_pending : (s.readRegister n).pending = s.pending := rfl
@[simp] theorem State.readRegister_outputs :
    (s.readRegister n).outputs = .value (s.engine.regRead n) :: s.outputs := rfl
@[simp] theorem State.readRegister_lastResponse : (s.readRegister n).lastResponse = none := rfl
@[simp] theorem State.resetEngine_engine : s.resetEngine.engine = Engine.reset := rfl
@[simp] theorem State.resetEngine_work : s.resetEngine.work = Work.reset := rfl
@[simp] theorem State.resetEngine_pending : s.resetEngine.pending = s.pending := rfl
@[simp] theorem State.resetEngine_outputs : s.resetEngine.outputs = s.outputs := rfl
@[simp] theorem State.presentWord_engine : (s.presentWord w).engine = s.engine := rfl
@[simp] theorem State.presentWord_work : (s.presentWord w).work = s.work := rfl
@[simp] theorem State.presentWord_pending : (s.presentWord w).pending = .cmd w :: s.pending := rfl
@[simp] theorem State.presentWord_outputs : (s.presentWord w).outputs = s.outputs := rfl

/-! ## latchErr: `err` only -/

theorem Engine.latchErr_eq :
    e.latchErr code = { e with err := if e.err = .ok then code else e.err } := by
  unfold Engine.latchErr; split <;> rfl

@[simp] theorem Engine.latchErr_chain : (e.latchErr code).chain = e.chain := by simp [Engine.latchErr_eq]
@[simp] theorem Engine.latchErr_counter0 : (e.latchErr code).counter0 = e.counter0 := by simp [Engine.latchErr_eq]
@[simp] theorem Engine.latchErr_counter1 : (e.latchErr code).counter1 = e.counter1 := by simp [Engine.latchErr_eq]
@[simp] theorem Engine.latchErr_finalizationFlags0 :
    (e.latchErr code).finalizationFlags0 = e.finalizationFlags0 := by simp [Engine.latchErr_eq]
@[simp] theorem Engine.latchErr_finalizationFlags1 :
    (e.latchErr code).finalizationFlags1 = e.finalizationFlags1 := by simp [Engine.latchErr_eq]
@[simp] theorem Engine.latchErr_buffer : (e.latchErr code).buffer = e.buffer := by simp [Engine.latchErr_eq]
@[simp] theorem Engine.latchErr_bufferLength : (e.latchErr code).bufferLength = e.bufferLength := by
  simp [Engine.latchErr_eq]
@[simp] theorem Engine.latchErr_outputSize : (e.latchErr code).outputSize = e.outputSize := by simp [Engine.latchErr_eq]
@[simp] theorem Engine.latchErr_phase : (e.latchErr code).phase = e.phase := by simp [Engine.latchErr_eq]
@[simp] theorem Engine.latchErr_err : (e.latchErr code).err = if e.err = .ok then code else e.err := by
  simp [Engine.latchErr_eq]

/-! ## advanceCounter: the two counter words only -/

@[simp] theorem Engine.advanceCounter_chain : (e.advanceCounter k).chain = e.chain := rfl
@[simp] theorem Engine.advanceCounter_counter0 : (e.advanceCounter k).counter0 = e.counter0 + k.setWidth 64 := rfl
@[simp] theorem Engine.advanceCounter_counter1 :
    (e.advanceCounter k).counter1 = e.counter1 + carryOut (e.counter0 + k.setWidth 64) (k.setWidth 64) := rfl
@[simp] theorem Engine.advanceCounter_finalizationFlags0 :
    (e.advanceCounter k).finalizationFlags0 = e.finalizationFlags0 := rfl
@[simp] theorem Engine.advanceCounter_finalizationFlags1 :
    (e.advanceCounter k).finalizationFlags1 = e.finalizationFlags1 := rfl
@[simp] theorem Engine.advanceCounter_buffer : (e.advanceCounter k).buffer = e.buffer := rfl
@[simp] theorem Engine.advanceCounter_bufferLength : (e.advanceCounter k).bufferLength = e.bufferLength := rfl
@[simp] theorem Engine.advanceCounter_outputSize : (e.advanceCounter k).outputSize = e.outputSize := rfl
@[simp] theorem Engine.advanceCounter_phase : (e.advanceCounter k).phase = e.phase := rfl
@[simp] theorem Engine.advanceCounter_err : (e.advanceCounter k).err = e.err := rfl

/-! ## setFinalFlag: the low flag word only -/

@[simp] theorem Engine.setFinalFlag_chain : e.setFinalFlag.chain = e.chain := rfl
@[simp] theorem Engine.setFinalFlag_counter0 : e.setFinalFlag.counter0 = e.counter0 := rfl
@[simp] theorem Engine.setFinalFlag_counter1 : e.setFinalFlag.counter1 = e.counter1 := rfl
@[simp] theorem Engine.setFinalFlag_finalizationFlags0 : e.setFinalFlag.finalizationFlags0 = 0xFFFFFFFFFFFFFFFF := rfl
@[simp] theorem Engine.setFinalFlag_finalizationFlags1 :
    e.setFinalFlag.finalizationFlags1 = e.finalizationFlags1 := rfl
@[simp] theorem Engine.setFinalFlag_buffer : e.setFinalFlag.buffer = e.buffer := rfl
@[simp] theorem Engine.setFinalFlag_bufferLength : e.setFinalFlag.bufferLength = e.bufferLength := rfl
@[simp] theorem Engine.setFinalFlag_outputSize : e.setFinalFlag.outputSize = e.outputSize := rfl
@[simp] theorem Engine.setFinalFlag_phase : e.setFinalFlag.phase = e.phase := rfl
@[simp] theorem Engine.setFinalFlag_err : e.setFinalFlag.err = e.err := rfl

/-! ## pad: the buffer only -/

@[simp] theorem Engine.pad_chain : e.pad.chain = e.chain := rfl
@[simp] theorem Engine.pad_counter0 : e.pad.counter0 = e.counter0 := rfl
@[simp] theorem Engine.pad_counter1 : e.pad.counter1 = e.counter1 := rfl
@[simp] theorem Engine.pad_finalizationFlags0 : e.pad.finalizationFlags0 = e.finalizationFlags0 := rfl
@[simp] theorem Engine.pad_finalizationFlags1 : e.pad.finalizationFlags1 = e.finalizationFlags1 := rfl
@[simp] theorem Engine.pad_bufferLength : e.pad.bufferLength = e.bufferLength := rfl
@[simp] theorem Engine.pad_outputSize : e.pad.outputSize = e.outputSize := rfl
@[simp] theorem Engine.pad_phase : e.pad.phase = e.phase := rfl
@[simp] theorem Engine.pad_err : e.pad.err = e.err := rfl

/-! ## compress: the chain only -/

@[simp] theorem Engine.compress_chain : e.compress.chain =
    compressChain e.chain e.counter0 e.counter1 e.finalizationFlags0 e.finalizationFlags1 e.buffer := rfl
@[simp] theorem Engine.compress_counter0 : e.compress.counter0 = e.counter0 := rfl
@[simp] theorem Engine.compress_counter1 : e.compress.counter1 = e.counter1 := rfl
@[simp] theorem Engine.compress_finalizationFlags0 : e.compress.finalizationFlags0 = e.finalizationFlags0 := rfl
@[simp] theorem Engine.compress_finalizationFlags1 : e.compress.finalizationFlags1 = e.finalizationFlags1 := rfl
@[simp] theorem Engine.compress_buffer : e.compress.buffer = e.buffer := rfl
@[simp] theorem Engine.compress_bufferLength : e.compress.bufferLength = e.bufferLength := rfl
@[simp] theorem Engine.compress_outputSize : e.compress.outputSize = e.outputSize := rfl
@[simp] theorem Engine.compress_phase : e.compress.phase = e.phase := rfl
@[simp] theorem Engine.compress_err : e.compress.err = e.err := rfl

/-! ## flush: the chain, the counter and the length only -/

@[simp] theorem Engine.flush_finalizationFlags0 : e.flush.finalizationFlags0 = e.finalizationFlags0 := by
  unfold Engine.flush; split <;> rfl
@[simp] theorem Engine.flush_finalizationFlags1 : e.flush.finalizationFlags1 = e.finalizationFlags1 := by
  unfold Engine.flush; split <;> rfl
@[simp] theorem Engine.flush_buffer : e.flush.buffer = e.buffer := by unfold Engine.flush; split <;> rfl
@[simp] theorem Engine.flush_outputSize : e.flush.outputSize = e.outputSize := by unfold Engine.flush; split <;> rfl
@[simp] theorem Engine.flush_phase : e.flush.phase = e.phase := by unfold Engine.flush; split <;> rfl
@[simp] theorem Engine.flush_err : e.flush.err = e.err := by unfold Engine.flush; split <;> rfl

theorem Engine.flush_of_ne (h : e.bufferLength ≠ 128) : e.flush = e := if_neg h

theorem Engine.flush_of_eq (h : e.bufferLength = 128) :
    e.flush = { (e.advanceCounter 128).compress with bufferLength := 0 } := if_pos h

theorem Engine.flush_bufferLength : e.flush.bufferLength = if e.bufferLength = 128 then 0 else e.bufferLength := by
  unfold Engine.flush; split <;> rfl

/-! ## finalize -/

@[simp] theorem Engine.finalize_counter0 : e.finalize.counter0 = (e.advanceCounter e.bufferLength).counter0 := rfl
@[simp] theorem Engine.finalize_counter1 : e.finalize.counter1 = (e.advanceCounter e.bufferLength).counter1 := rfl
@[simp] theorem Engine.finalize_finalizationFlags0 : e.finalize.finalizationFlags0 = 0xFFFFFFFFFFFFFFFF := rfl
@[simp] theorem Engine.finalize_finalizationFlags1 : e.finalize.finalizationFlags1 = e.finalizationFlags1 := rfl
@[simp] theorem Engine.finalize_buffer : e.finalize.buffer = e.pad.buffer := rfl
@[simp] theorem Engine.finalize_bufferLength : e.finalize.bufferLength = e.bufferLength := rfl
@[simp] theorem Engine.finalize_outputSize : e.finalize.outputSize = e.outputSize := rfl
@[simp] theorem Engine.finalize_phase : e.finalize.phase = .done := rfl
@[simp] theorem Engine.finalize_err : e.finalize.err = e.err := rfl
theorem Engine.finalize_chain : e.finalize.chain =
    compressChain e.chain (e.advanceCounter e.bufferLength).counter0 (e.advanceCounter e.bufferLength).counter1
      0xFFFFFFFFFFFFFFFF e.finalizationFlags1 e.pad.buffer := rfl

end Sys2Proof.Machine
end

