-- ==== Sys2Proof/Laws/Exec.lean ====
section
/-! SUPPORT. What each meaning, the decoder's commands and a step can do, said once. -/

namespace Sys2Proof.Machine

/-! ## sequencing -/

@[simp] theorem andThen_next (s : State) (f : State → Host.Outcome State Fault Refusal) : andThen (.next s) f = f s := rfl
@[simp] theorem andThen_fault (r : Fault) (f : State → Host.Outcome State Fault Refusal) :
    andThen (.fault r) f = .fault r := rfl
@[simp] theorem andThen_refused (r : Refusal) (f : State → Host.Outcome State Fault Refusal) :
    andThen (.refused r) f = .refused r := rfl

theorem andThen_assoc (o : Host.Outcome State Fault Refusal) (f g : State → Host.Outcome State Fault Refusal) :
    andThen (andThen o f) g = andThen o (fun s => andThen (f s) g) := by cases o <;> rfl

/-- A sequence answers a next state exactly when both parts do. -/
theorem andThen_eq_next {o : Host.Outcome State Fault Refusal} {f : State → Host.Outcome State Fault Refusal} {t : State} :
    andThen o f = .next t ↔ ∃ s, o = .next s ∧ f s = .next t := by
  cases o <;> simp [andThen]

/-! ## the commands -/

theorem outputSizeLegal_iff (arg : Byte) : outputSizeLegal arg = true ↔ 1 ≤ arg.toNat ∧ arg.toNat ≤ 64 := by
  simp [outputSizeLegal]

theorem execConstruct_of_legal (arg : Byte) (s : State) (h : outputSizeLegal arg = true) :
    execConstruct arg s = .next (s.accept (constructed arg)) := by simp [execConstruct, h]

theorem execConstruct_of_illegal (arg : Byte) (s : State) (h : outputSizeLegal arg = false) :
    execConstruct arg s = .next (s.reject .badOutputSize) := by simp [execConstruct, h]

/-- ABSORB outside ACTIVE. -/
theorem execAbsorb_idle (b : Byte) (s : State) (h : s.engine.phase = .idle) :
    execAbsorb b s = .next (s.reject .notConstructed) := by simp [execAbsorb, phaseCheck, h]

theorem execAbsorb_done (b : Byte) (s : State) (h : s.engine.phase = .done) :
    execAbsorb b s = .next (s.reject .alreadyFinalized) := by simp [execAbsorb, phaseCheck, h]

/-- The engine an accepted ABSORB leaves. -/
def Engine.absorbed (b : Byte) (e : Engine) : Engine :=
  { e.flush with buffer := e.buffer.put e.flush.bufferLength.toNat b, bufferLength := e.flush.bufferLength + 1 }

/-- ABSORB in ACTIVE, whole. -/
theorem execAbsorb_active (b : Byte) (s : State) (h : s.engine.phase = .active) :
    execAbsorb b s = if s.engine.bufferLength.toNat ≤ 128 then .next (s.accept (s.engine.absorbed b))
      else .fault .bufferAddressOutOfRange := by
  unfold execAbsorb
  simp only [h, phaseCheck, Engine.append_eq]
  by_cases hl : s.engine.bufferLength.toNat ≤ 128
  · have : s.engine.flush.bufferLength.toNat < 128 := by
      rw [Engine.flush_bufferLength]
      split
      · simp
      · next hne =>
        rcases Nat.lt_or_eq_of_le hl with h1 | h1
        · exact h1
        · exact absurd (BitVec.eq_of_toNat_eq (by simpa using h1)) hne
    rw [if_pos this, if_pos hl]
    simp [Engine.absorbed]
  · have hne : s.engine.bufferLength ≠ 128 := by
      intro h1; rw [h1] at hl; exact hl (by decide)
    rw [Engine.flush_of_ne _ hne, if_neg (by omega), if_neg hl]

/-- Everything ABSORB can do when it answers a next state. -/
theorem execAbsorb_cases {b : Byte} {s t : State} (h : execAbsorb b s = .next t) :
    (s.engine.phase = .idle ∧ t = s.reject .notConstructed) ∨
    (s.engine.phase = .active ∧ s.engine.bufferLength.toNat ≤ 128 ∧ t = s.accept (s.engine.absorbed b)) ∨
    (s.engine.phase = .done ∧ t = s.reject .alreadyFinalized) := by
  cases hp : s.engine.phase
  · rw [execAbsorb_idle b s hp] at h; left; exact ⟨rfl, by injection h with h; exact h.symm⟩
  · rw [execAbsorb_active b s hp] at h
    split at h
    · next hl => right; left; exact ⟨rfl, hl, by injection h with h; exact h.symm⟩
    · cases h
  · rw [execAbsorb_done b s hp] at h; right; right; exact ⟨rfl, by injection h with h; exact h.symm⟩

theorem execFinalize_idle (s : State) (h : s.engine.phase = .idle) :
    execFinalize s = .next (s.reject .notConstructed) := by simp [execFinalize, phaseCheck, h]

theorem execFinalize_active (s : State) (h : s.engine.phase = .active) :
    execFinalize s = .next (s.accept s.engine.finalize) := by simp [execFinalize, phaseCheck, h]

theorem execFinalize_done (s : State) (h : s.engine.phase = .done) :
    execFinalize s = .next (s.reject .alreadyFinalized) := by simp [execFinalize, phaseCheck, h]

/-- Everything a decoded command word can do when it answers a next state: a rejection of a command whose check fails, or one of the
three accepted commands. -/
inductive CommandEffect (w : CmdWord) (s t : State) : Prop where
  | constructRejected (arg : Byte) (hd : decode w = .construct arg) (hl : outputSizeLegal arg = false)
      (ht : t = s.reject .badOutputSize)
  | constructAccepted (arg : Byte) (hd : decode w = .construct arg) (hl : outputSizeLegal arg = true)
      (ht : t = s.accept (constructed arg))
  | idleRejected (hd : (∃ b, decode w = .absorb b) ∨ decode w = .finalize) (hp : s.engine.phase = .idle)
      (ht : t = s.reject .notConstructed)
  | doneRejected (hd : (∃ b, decode w = .absorb b) ∨ decode w = .finalize) (hp : s.engine.phase = .done)
      (ht : t = s.reject .alreadyFinalized)
  | absorbAccepted (b : Byte) (hd : decode w = .absorb b) (hp : s.engine.phase = .active)
      (hl : s.engine.bufferLength.toNat ≤ 128) (ht : t = s.accept (s.engine.absorbed b))
  | finalizeAccepted (hd : decode w = .finalize) (hp : s.engine.phase = .active) (ht : t = s.accept s.engine.finalize)
  | illegalRejected (hd : decode w = .illegal w) (ht : t = s.reject .illegalCommand)

/-- The decoder's four answers. -/
theorem decode_cases (w : CmdWord) :
    (∃ arg, decode w = .construct arg) ∨ (∃ b, decode w = .absorb b) ∨ decode w = .finalize ∨ decode w = .illegal w := by
  unfold decode
  split
  · exact .inl ⟨_, rfl⟩
  · split
    · exact .inr (.inl ⟨_, rfl⟩)
    · split
      · exact .inr (.inr (.inl rfl))
      · exact .inr (.inr (.inr rfl))

theorem exec_decode_cases {w : CmdWord} {s t : State} (h : exec (decode w) s = .next t) : CommandEffect w s t := by
  obtain ⟨arg, hd⟩ | ⟨b, hd⟩ | hd | hd := decode_cases w <;> rw [hd] at h
  · change execConstruct arg s = _ at h
    cases hl : outputSizeLegal arg
    · rw [execConstruct_of_illegal arg s hl] at h
      exact .constructRejected arg hd hl (by injection h with h; exact h.symm)
    · rw [execConstruct_of_legal arg s hl] at h
      exact .constructAccepted arg hd hl (by injection h with h; exact h.symm)
  · change execAbsorb b s = _ at h
    obtain ⟨hp, ht⟩ | ⟨hp, hl, ht⟩ | ⟨hp, ht⟩ := execAbsorb_cases h
    · exact .idleRejected (.inl ⟨b, hd⟩) hp ht
    · exact .absorbAccepted b hd hp hl ht
    · exact .doneRejected (.inl ⟨b, hd⟩) hp ht
  · change execFinalize s = _ at h
    cases hp : s.engine.phase
    · rw [execFinalize_idle s hp] at h
      exact .idleRejected (.inr hd) hp (by injection h with h; exact h.symm)
    · rw [execFinalize_active s hp] at h
      exact .finalizeAccepted hd hp (by injection h with h; exact h.symm)
    · rw [execFinalize_done s hp] at h
      exact .doneRejected (.inr hd) hp (by injection h with h; exact h.symm)
  · injection h with h
    exact .illegalRejected hd h.symm

/-! ## the expansions -/

@[simp] theorem execAll_nil (s : State) : execAll [] s = .next s := rfl

theorem execAll_cons (i : Instr) (rest : List Instr) (s : State) :
    execAll (i :: rest) s = andThen (exec i s) (execAll rest) := rfl

/-- A list of rows in two parts. -/
theorem execAll_append (as bs : List Instr) (s : State) : execAll (as ++ bs) s = andThen (execAll as s) (execAll bs) := by
  induction as generalizing s with
  | nil => rfl
  | cons i as ih =>
    rw [List.cons_append, execAll_cons, execAll_cons, andThen_assoc]
    exact congrArg _ (funext ih)

/-! ## the step -/

theorem step_idle (s : State) (h : s.pending = []) : step s = .next s := by simp [step, h]

theorem step_pending (s : State) (a : HostAction) (rest : List HostAction) (h : s.pending = a :: rest) :
    step s = takeAction a { s with pending := rest } := by simp [step, h]

/-- Everything a step can do when it answers a next state. -/
inductive StepEffect (s t : State) : Prop where
  | idle (hq : s.pending = []) (ht : t = s)
  | command (w : CmdWord) (rest : List HostAction) (hq : s.pending = .cmd w :: rest)
      (hc : CommandEffect w { s with pending := rest } t)
  | read (n : Byte) (rest : List HostAction) (hq : s.pending = .regRead n :: rest)
      (ht : t = ({ s with pending := rest } : State).readRegister n)
  | reset (rest : List HostAction) (hq : s.pending = .reset :: rest) (ht : t = ({ s with pending := rest } : State).resetEngine)

theorem step_cases {s t : State} (h : step s = .next t) : StepEffect s t := by
  cases hq : s.pending with
  | nil => rw [step_idle s hq] at h; exact .idle hq (by injection h with h; exact h.symm)
  | cons a rest =>
    rw [step_pending s a rest hq] at h
    cases a with
    | cmd w => exact .command w rest hq (exec_decode_cases h)
    | regRead n => injection h with h; exact .read n rest hq h.symm
    | reset => injection h with h; exact .reset rest hq h.symm

/-! ## runs -/

@[simp] theorem runSteps_zero (s : State) : runSteps 0 s = .next s := rfl

theorem runSteps_succ (k : Nat) (s : State) : runSteps (k + 1) s = andThen (step s) (runSteps k) := rfl

/-- The first of the pending actions, then the rest of the run. -/
theorem runSteps_action (k : Nat) (a : HostAction) (rest : List HostAction) (s : State) (h : s.pending = a :: rest) :
    runSteps (k + 1) s = andThen (takeAction a { s with pending := rest }) (runSteps k) := by
  rw [runSteps_succ, step_pending s a rest h]

theorem runSteps_pending (k : Nat) (a : HostAction) (rest : List HostAction) (s : State) :
    runSteps (k + 1) { s with pending := a :: rest } = andThen (takeAction a { s with pending := rest }) (runSteps k) := rfl

theorem runSteps_add (j k : Nat) (s : State) : runSteps (j + k) s = andThen (runSteps j s) (runSteps k) := by
  induction j generalizing s with
  | zero => rw [Nat.zero_add]; rfl
  | succ j ih =>
    rw [Nat.succ_add, runSteps_succ, runSteps_succ, andThen_assoc]
    congr 1
    funext t
    exact ih t

/-- The host's run of the core is this run. -/
theorem core_run_eq_runSteps (k : Nat) (s : State) : Host.Core.run Sys2Proof.core k s = runSteps k s := by
  induction k generalizing s with
  | zero => rfl
  | succ k ih =>
    refine (Host.Core.run.eq_2 Sys2Proof.core s k).trans ?_
    have h : Sys2Proof.core.step s = step s := rfl
    rw [h, runSteps_succ]
    cases step s
    · exact ih _
    · rfl
    · rfl

end Sys2Proof.Machine
end

