-- ==== Sys2Proof/Laws/Ops.lean ====
section
/-! SUPPORT. One lemma for each of the shared operations that reads or writes several bytes or registers at once. -/

namespace Sys2Proof.Machine

/-! ## little-endian runs of bytes -/

theorem Buffer.writeLE_wf (n : Nat) : ∀ (m : Buffer) (addr v : Nat), m.wf = true → addr + n ≤ 128 → (m.writeLE addr n v).wf = true := by
  induction n with
  | zero => intro m addr v h _; exact h
  | succ n ih => intro m addr v h ha; exact ih _ _ _ (Buffer.put_wf _ _ _ h (by omega)) (by omega)

theorem Buffer.get_writeLE (n : Nat) : ∀ (m : Buffer) (addr v x : Nat), m.wf = true → addr + n ≤ 128 → (m.writeLE addr n v).get x =
    if addr ≤ x ∧ x < addr + n then BitVec.ofNat 8 (v / 2 ^ (8 * (x - addr))) else m.get x := by
  induction n with
  | zero => intro m addr v x h _; rw [if_neg (by omega)]; rfl
  | succ n ih =>
    intro m addr v x h ha
    rw [Buffer.writeLE, ih _ _ _ _ (Buffer.put_wf _ _ _ h (by omega)) (by omega), Buffer.get_put _ _ _ _ h]
    by_cases h1 : x = addr
    · subst h1; rw [if_neg (by omega), if_pos rfl, if_pos (by omega)]; simp
    · rw [if_neg h1]
      by_cases h2 : addr + 1 ≤ x ∧ x < addr + 1 + n
      · rw [if_pos h2, if_pos (by omega)]
        obtain ⟨d, rfl⟩ : ∃ d, x = addr + 1 + d := ⟨x - (addr + 1), by omega⟩
        rw [Nat.div_div_eq_div_mul, ← pow_add]; congr 3; omega
      · rw [if_neg h2, if_neg (by omega)]

theorem Buffer.readLE_lt (m : Buffer) (n : Nat) : ∀ addr, m.readLE addr n < 2 ^ (8 * n) := by
  induction n with
  | zero => intro addr; simp [Buffer.readLE]
  | succ n ih =>
    intro addr
    have := ih (addr + 1)
    have hb := (m.get addr).isLt
    rw [Buffer.readLE, show 2 ^ (8 * (n + 1)) = 2 ^ 8 * 2 ^ (8 * n) by rw [← pow_add]; congr 1; omega]
    omega

theorem Buffer.readLE_byte (m : Buffer) (n : Nat) : ∀ addr k, k < n → m.readLE addr n / 2 ^ (8 * k) % 256 = (m.get (addr + k)).toNat := by
  induction n with
  | zero => intro addr k h; omega
  | succ n ih =>
    intro addr k hk
    have hb := (m.get addr).isLt
    rw [Buffer.readLE]
    cases k with
    | zero => simp; omega
    | succ k =>
      have := ih (addr + 1) k (by omega)
      rw [show 2 ^ (8 * (k + 1)) = 2 ^ 8 * 2 ^ (8 * k) by rw [← pow_add]; congr 1; omega, ← Nat.div_div_eq_div_mul,
       show ((m.get addr).toNat + 2 ^ 8 * m.readLE (addr + 1) n) / 2 ^ 8 = m.readLE (addr + 1) n by omega, this]
      congr 2; omega

/-! ## rotation and G -/

theorem rotr64_eq_rotateRight (x : Word) (n : Nat) (h : n < 64) : rotr64 x n = x.rotateRight n := by
  rw [BitVec.rotateRight_def, Nat.mod_eq_of_lt h]; rfl

/-- G writes no word but the four. -/
theorem mix_other (v : Vector Word 16) (a b c d : Fin 16) (x y : Word) (k : Fin 16) (h : k ∉ [a,b,c,d]) : (mix v a b c d x y)[k] = v[k] := by
  simp only [List.mem_cons, List.not_mem_nil, or_false, not_or] at h
  obtain ⟨h1, h2, h3, h4⟩ := h
  have e1 : a.val ≠ k.val := fun e => h1 (Fin.ext e.symm)
  have e2 : b.val ≠ k.val := fun e => h2 (Fin.ext e.symm)
  have e3 : c.val ≠ k.val := fun e => h3 (Fin.ext e.symm)
  have e4 : d.val ≠ k.val := fun e => h4 (Fin.ext e.symm)
  simp [mix, Vector.getElem_set, e1, e2, e3, e4]

/-! ## the read port -/

theorem Engine.regRead_window (e : Engine) (j : Fin 64) : e.regRead (BitVec.ofNat 8 (0x40 + j.val)) = e.digestRegister j := by
  have hj := j.isLt
  have hn : (BitVec.ofNat 8 (0x40 + j.val)).toNat = 0x40 + j.val := by simp; omega
  unfold Engine.regRead
  rw [if_neg (by intro h; rw [h] at hn; simp at hn; omega), dif_pos (by omega)]
  congr 1
  apply Fin.ext
  simp; omega

theorem State.readWindow_eq (n : Nat) (s : State) : s.readWindow n = { s with outputs := ((List.range n).map fun j =>
      PortOutput.value (s.engine.regRead (BitVec.ofNat 8 (0x40 + j)))).reverse ++ s.outputs } := by
  induction n with
  | zero => rfl
  | succ n ih =>
    rw [State.readWindow, ih, List.range_succ]
    simp [State.readRegister]

/-! ## the flush -/

theorem Engine.flush_bufferLength_lt (e : Engine) (h : e.bufferLength.toNat ≤ 128) : e.flush.bufferLength.toNat < 128 := by
  rw [Engine.flush_bufferLength]
  split
  · simp
  · next hne =>
    rcases Nat.lt_or_eq_of_le h with h1 | h1
    · exact h1
    · exact absurd (BitVec.eq_of_toNat_eq (by simpa using h1)) hne

end Sys2Proof.Machine
end

