-- ==== Sys2Proof/Laws/PerInstr.lean ====
section
/-! SUPPORT. Facts made per instruction. TableRow: an encoded word lies in its own row of spec/opcode_table.json (match and mask). -/

namespace Sys2Proof

/-- The match and mask columns of spec/opcode_table.json; `none` for the rows whose columns are null. -/
def Instr.tableRow : Instr → Option (CmdWord × CmdWord)
  | .construct _ => some (0x0100, 0xFF00)
  | .absorb _ => some (0x0200, 0xFF00)
  | .finalize => some (0x0300, 0xFFFF)
  | .illegal _ => none
  | .update _ => none
  | .hash _ _ => none
  | .readDigest => none
  | .compress => none
  | .round _ => none
  | .g _ _ _ _ _ _ => none

/-- The word of a row with a match and a mask agrees with them; a row without them has no word, or a word that no row matches. -/
def Laws.TableRow.Statement (i : Instr) : Prop :=
  (∀ m k w, i.tableRow = some (m, k) → encode i = some w → w &&& k = m) ∧
  (i.tableRow = none → i.wf = true → ∀ w, encode i = some w → isIllegalWord w = true)

namespace Laws.TableRow

theorem of_no_word {i : Instr} (h : encode i = none) (_hr : i.tableRow = none) : Statement i :=
  ⟨fun _ _ _ _ hw => by simp [h] at hw, fun _ _ _ hw => by simp [h] at hw⟩

theorem construct (arg : Byte) : Statement (.construct arg) := by
  refine ⟨fun m k w hr hw => ?_, fun hr => by simp [Instr.tableRow] at hr⟩
  simp only [Instr.tableRow, Option.some.injEq, Prod.mk.injEq, encode] at hr hw
  obtain ⟨rfl, rfl⟩ := hr
  subst hw
  exact (and_opcode_mask _).trans (by rw [opField_commandWord]; decide)

theorem absorb (arg : Byte) : Statement (.absorb arg) := by
  refine ⟨fun m k w hr hw => ?_, fun hr => by simp [Instr.tableRow] at hr⟩
  simp only [Instr.tableRow, Option.some.injEq, Prod.mk.injEq, encode] at hr hw
  obtain ⟨rfl, rfl⟩ := hr
  subst hw
  exact (and_opcode_mask _).trans (by rw [opField_commandWord]; decide)

theorem finalize : Statement .finalize := by
  refine ⟨fun m k w hr hw => ?_, fun hr => by simp [Instr.tableRow] at hr⟩
  simp only [Instr.tableRow, Option.some.injEq, Prod.mk.injEq, encode] at hr hw
  obtain ⟨rfl, rfl⟩ := hr
  subst hw
  decide

theorem illegal (w : CmdWord) : Statement (.illegal w) := by
  refine ⟨fun m k v hr => by simp [Instr.tableRow] at hr, fun _ hwf v hv => ?_⟩
  simp only [encode, Option.some.injEq] at hv
  exact hv ▸ hwf

theorem update (span : List Byte) : Statement (.update span) := of_no_word rfl rfl
theorem hash (n : Byte) (input : List Byte) : Statement (.hash n input) := of_no_word rfl rfl
theorem readDigest : Statement .readDigest := of_no_word rfl rfl
theorem compress : Statement .compress := of_no_word rfl rfl
theorem round (r : Fin 12) : Statement (.round r) := of_no_word rfl rfl
theorem g (a b c d : Fin 16) (x y : Word) : Statement (.g a b c d x y) := of_no_word rfl rfl

end Laws.TableRow

end Sys2Proof
end

