-- ==== Sys2Proof/Tests/Slice0.lean ====
section
/-! SUPPORT. Tests. Expected results are the spec's own: its encodings (30_encoding.md) and its worked examples (95_test_vectors.md, by
the vector's id). At the end one witness for each obligation that has hypotheses. -/

namespace Sys2Proof.Machine

/-! ## WellFormed: an ill-formed term for each check -/

theorem test_wf_illegal_refuses_command_words :
    (Instr.illegal 0x0140).wf = false ∧ (Instr.illegal 0x0100).wf = false ∧ (Instr.illegal 0x0200).wf = false ∧
    (Instr.illegal 0x0300).wf = false ∧ (Instr.illegal 0x0301).wf = true := by decide

theorem test_wf_g_refuses_equal_indices :
    (Instr.g 1 1 8 12 0 0).wf = false ∧ (Instr.g 0 4 0 12 0 0).wf = false ∧ (Instr.g 0 4 8 0 0 0).wf = false ∧
    (Instr.g 0 4 4 12 0 0).wf = false ∧ (Instr.g 0 4 8 4 0 0).wf = false ∧ (Instr.g 0 4 8 8 0 0).wf = false ∧
    (Instr.g 0 4 8 12 0 0).wf = true := by decide

/-! ## Decode and encode: words written out from R71, R72, R75, R80 -/

theorem test_decode_construct : decode 0b0000000100100000#16 = .construct 32 := by decide
theorem test_decode_absorb : decode 0b0000001010000001#16 = .absorb 0x81 := by decide
theorem test_decode_finalize : decode 0b0000001100000000#16 = .finalize := by decide

theorem test_decode_illegal :
    decode 0b0000001110000000#16 = .illegal 0x0380 ∧ decode 0b0000000011111111#16 = .illegal 0x00FF ∧
    decode 0b1111111111111111#16 = .illegal 0xFFFF ∧ decode 0b0000010000000000#16 = .illegal 0x0400 := by decide

theorem test_encode_words :
    encode (.construct 64) = some 0x0140 ∧ encode (.absorb 0x61) = some 0x0261 ∧ encode .finalize = some 0x0300 ∧
    encode (.illegal 0x0301) = some 0x0301 ∧ encode (.update [0x61]) = none ∧ encode .readDigest = none := by decide

theorem test_decodeTableWord :
    decodeTableWord 16 0x0140 = some (.construct 64) ∧ decodeTableWord 8 0x01FF = some (.illegal 0x00FF) ∧
    decodeTableWord 24 0x0140 = none := by decide

/-! ## Small states -/

/-- The engine of an outcome that is a next state. -/
def testEngine : Host.Outcome State Fault Refusal → Option Engine
  | .next s => some s.engine
  | .fault _ => none
  | .refused _ => none

/-- The answers of an outcome that is a next state. -/
def testOutputs : Host.Outcome State Fault Refusal → Option (List PortOutput)
  | .next s => some s.outputs
  | .fault _ => none
  | .refused _ => none

/-- The working vector of an outcome that is a next state. -/
def testVector : Host.Outcome State Fault Refusal → Option (List Word)
  | .next s => some s.work.v.toList
  | .fault _ => none
  | .refused _ => none

/-- `pat(n)` of 95_test_vectors.md. -/
def testPattern (n : Nat) : List Byte := (List.range n).map (BitVec.ofNat 8)

/-- After `CONSTRUCT 64`, with a given `bufferLength` and buffer. -/
def testActive (len : BitVec 8) (m : Buffer) : State :=
  { State.reset with engine := { constructed 64 with bufferLength := len, buffer := m } }

/-- In DONE, with a given `outputSize` and first chain word. -/
def testDone (size : BitVec 7) (w : Word) : State :=
  { State.reset with engine := { constructed 64 with
      chain := (constructed 64).chain.set 0 w, outputSize := size, phase := .done, finalizationFlags0 := 0xFFFFFFFFFFFFFFFF } }

/-- With `v` and `m` given. -/
def testWork (v m : Vector Word 16) : State := { State.reset with work := { v := v, m := m } }

/-! ## One step or one row at a time -/

/-- V-N1. -/
theorem test_construct_sets_chain :
    (testEngine (exec (.construct 1) State.reset)).map (fun e => e.chain[0]) = some 0x6a09e667f2bdc909 ∧
    (testEngine (exec (.construct 64) (testDone 32 5))).map (fun e => (e.chain[0], e.chain[7], e.outputSize, e.regRead 0)) =
      some (0x6a09e667f2bdc948, 0x5be0cd19137e2179, 64, 0x01) := by decide

/-- V-N2. -/
theorem test_construct_rejects_65 :
    (testEngine (exec (.construct 65) (testActive 3 [(0, 9)]))).map (fun e => (e.bufferLength, e.buffer, e.regRead 0)) =
      some (3, [(0, 9)], 0x05) := by decide

/-- V-U1. -/
theorem test_absorb_first_byte :
    (testEngine (exec (.absorb 0x61) (testActive 0 []))).map (fun e => (e.buffer.get 0, e.buffer.get 1, e.bufferLength, e.chain[0])) =
      some (0x61, 0x00, 1, 0x6a09e667f2bdc948) := by decide

/-- V-U3. -/
theorem test_absorb_flushes_full_block :
    (testEngine (exec (.absorb 0x80) (testActive 128 (Buffer.putBytes [] 0 (testPattern 128))))).map
      (fun e => (e.chain[0], e.chain[7], e.counter0, e.counter1, e.bufferLength, e.buffer.get 0, e.buffer.get 1, e.buffer.get 127)) =
      some (0xffa0852a267eb85a, 0xe96b7e8825d0f5a7, 128, 0, 1, 0x80, 0x01, 0x7f) := by decide +kernel

/-- V-S1 and V-K1, from the constructed state: the empty message. -/
theorem test_finalize_empty_message :
    (testEngine (exec .finalize (testActive 0 []))).map
      (fun e => (e.chain[0], e.regRead 0x40, e.regRead 0x7F, e.counter0, e.finalizationFlags0, e.finalizationFlags1, e.regRead 0)) =
      some (0x03590142f7026a78, 0x78, 0xce, 0, 0xFFFFFFFFFFFFFFFF, 0, 0x02) := by decide +kernel

/-- V-E3. -/
theorem test_finalize_twice_rejected :
    (testEngine (exec .finalize (testDone 64 0x03590142f7026a78))).map (fun e => (e.regRead 0, e.regRead 0x40)) =
      some (0x0a, 0x78) := by decide

/-- V-E1 and V-E2: decode before phase. -/
theorem test_illegal_in_idle :
    (testEngine (exec (.illegal 0x0301) State.reset)).map (fun e => e.regRead 0) = some 0x10 ∧
    testOutputs (exec (.illegal 0x0301) State.reset) = some [.response .illegalCommand] := by decide

/-- V-M1's buffer, and R111. -/
theorem test_update_abc :
    (testEngine (exec (.update [0x61, 0x62, 0x63]) (testActive 0 []))).map (fun e => (e.bufferLength, messageWord e.buffer 0)) =
      some (3, 0x0000000000636261) := by decide

/-- R81: after a rejected ABSORB the later ones are still issued and rejected. -/
theorem test_update_in_idle :
    testOutputs (exec (.update [1, 2]) State.reset) = some [.response .notConstructed, .response .notConstructed] := by decide

/-- P6: the one-byte digest of "abc". -/
theorem test_hash_abc_one_byte :
    testOutputs (exec (.hash 1 [0x61, 0x62, 0x63]) State.reset) =
      some (.value 0x6b :: List.replicate 5 (.response .ok)) := by decide +kernel

/-- R160: HASH fails with the code of its CONSTRUCT. -/
theorem test_hash_bad_size :
    testOutputs (exec (.hash 65 [0x61]) State.reset) = some [.response .badOutputSize] ∧
    hashResult 65 [0x61] State.reset = some (.failed .badOutputSize) := by decide

/-- R81: the expansion of HASH goes on after the rejected CONSTRUCT, and each later command is rejected for the phase. -/
theorem test_hash_expansion_bad_size :
    expansion (.hash 65 [0x61]) = [.construct 65, .absorb 0x61, .finalize, .readDigest] ∧
    testOutputs (execAll (expansion (.hash 65 [0x61])) State.reset) =
      some [.response .notConstructed, .response .notConstructed, .response .badOutputSize] ∧
    hashExpansionActions 2 65 [0x61] = [.cmd 0x0141, .cmd 0x0261, .cmd 0x0300, .regRead 0x40, .regRead 0x41] := by decide

/-- R124's example, and R34's truncation. -/
theorem test_readDigest :
    testOutputs (exec .readDigest (testDone 3 0x03590142f7026a78)) = some [.value 0x02, .value 0x6a, .value 0x78] ∧
    (testDone 3 0x03590142f7026a78).engine.regRead 0x43 = 0x00 := by decide

/-- V-K3. -/
theorem test_compress_arbitrary_state :
    (testEngine (exec .compress { State.reset with engine := { Engine.reset with
        chain := Vector.ofFn fun i : Fin 8 => 0x0123456789abcdef#64 * BitVec.ofNat 64 (i.val + 1)
        counter0 := 0x100
        counter1 := 7
        buffer := Buffer.putBytes [] 0 (testPattern 128) } })).map (fun e => (e.chain[0], e.chain[6], e.chain[7], e.counter1)) =
      some (0xe1359258188d4864, 0x8f3920aeab07e128, 0x9b045c24fa85a362, 7) := by decide +kernel

/-- V-K2: round 0 of "abc". -/
theorem test_round_zero_of_abc :
    (testVector (exec (.round 0) (testWork (initialVector (constructed 64).chain 3 0 0xFFFFFFFFFFFFFFFF 0)
        (messageWords [(0, 0x61), (1, 0x62), (2, 0x63)])))).map (fun v => (v[0]?, v[5]?, v[10]?, v[15]?)) =
      some (some 0x86b7c1568029bb79, some 0xa447c850aa694a7e, some 0xfa87b01273fa6dbe, some 0x2318a24e2140fc64) := by decide +kernel

/-- V-G2: `x` is used and the four results land in `a, b, c, d`. -/
theorem test_g_zero_state :
    testVector (exec (.g 2 6 10 14 1 0) (testWork (Vector.replicate 16 0) (Vector.replicate 16 0))) =
      some [0, 0, 0x101, 0, 0, 0, 0x0202000200020200, 0, 0, 0, 0x0101000100010000, 0, 0, 0, 0x0101000000010000, 0] := by decide

/-- V-G6. -/
theorem test_g_all_inputs :
    (testVector (exec (.g 0 1 2 3 0x1111111111111111 0x2222222222222222) (testWork
        #v[0x0123456789abcdef, 0xfedcba9876543210, 0x0f1e2d3c4b5a6978, 0x8796a5b4c3d2e1f0, 0, 0, 0, 0, 0, 0, 0, 0, 0, 0, 0, 0]
        (Vector.replicate 16 0)))).map (List.take 4) =
      some [0xe95f405271d7b7c9, 0xa6c4a94d586303f4, 0xe54e59b99295056d, 0x036c3b9cb0b2e750] := by decide

/-- V-T1. -/
theorem test_counter_carry :
    (({ Engine.reset with counter0 := 0xffffffffffffff80 } : Engine).advanceCounter 128).t = 1#64 ++ 0#64 ∧
    (({ Engine.reset with counter0 := 0xffffffffffffffc0, counter1 := 0xffffffffffffffff } : Engine).advanceCounter 128).t =
      0#64 ++ 0x40#64 := by decide

/-- V-G8 and R132. -/
theorem test_sigma_entries :
    sigma[1][0] = 14 ∧ sigma[1][1] = 10 ∧ sigma[9][14] = 13 ∧ sigma[9][15] = 0 ∧ sigma[11][14] = 5 ∧ sigma[11][15] = 3 := by decide

/-- V-E4 as a run of host actions, with STATUS reads between them. -/
theorem test_err_keeps_first_cause :
    testOutputs (runSteps 7 { State.reset with pending :=
        [.cmd 0x0300, .cmd 0x0000, .regRead 0, .cmd 0x0140, .regRead 0, .reset, .regRead 0] }) =
      some [.value 0x00, .value 0x01, .response .ok, .value 0x0c, .response .illegalCommand, .response .notConstructed] := by decide

/-- The word that `withFetchWord` stores is the one the next step runs. -/
theorem test_step_runs_table_word :
    (testEngine (step (State.reset.withFetchWord 16 0x0120))).map (fun e => e.outputSize) = some 32 := by decide

/-- V-H1. -/
theorem test_hex : hexEncode [0x00, 0x0f, 0xa0, 0xff] = ['0', '0', '0', 'f', 'a', '0', 'f', 'f'] := by decide

/-- R80 and R81. -/
theorem test_assembler_lines :
    assembleLine ['C', 'O', 'N', 'S', 'T', 'R', 'U', 'C', 'T', ' ', '6', '4'] = some (some (.construct 64)) ∧
    assembleLine ['A', 'B', 'S', 'O', 'R', 'B', ' ', '0', 'x', '6', '1', ' ', '#', ' ', 'a'] = some (some (.absorb 0x61)) ∧
    assembleLine ['.', 'w', 'o', 'r', 'd', ' ', '0', 'x', '0', '3', '0', '1'] = some (some (.illegal 0x0301)) ∧
    assembleLine ['U', 'P', 'D', 'A', 'T', 'E', ' ', quoteChar, 'a', 'b', 'c', quoteChar] =
      some (some (.update [0x61, 0x62, 0x63])) ∧
    assembleLine ['#', 'x'] = some none ∧ assembleRows ['#', 'x'] = some [] ∧
    assembleRows ['H', 'A', 'S', 'H', ' ', '3', '2', ',', ' ', quoteChar, 'a', quoteChar] =
      some [.construct 32, .absorb 0x61, .finalize, .readDigest] := by decide +kernel

/-! ## Witnesses: for each obligation with hypotheses, inputs that meet them together, each clause at the edges of its range -/

/-- DecodeOfEncodeIsTheInstruction: both sides of the second clause, and the edges of the operands. -/
theorem witness_DecodeOfEncode :
    (Instr.construct 255).wf = true ∧ encode (.construct 255) = some 0x01FF ∧
    (Instr.absorb 0).wf = true ∧ encode (.absorb 0) = some 0x0200 ∧ Instr.finalize.wf = true ∧ encode .finalize = some 0x0300 ∧
    (Instr.illegal 0xFFFF).wf = true ∧ encode (.illegal 0xFFFF) = some 0xFFFF ∧
    (Instr.g 0 4 8 12 0 0).wf = true ∧ encode (.g 0 4 8 12 0 0) = none := by decide

/-- DecoderReadsOpAndArg: the four clauses, which exclude each other. -/
theorem witness_DecoderReadsOpAndArg :
    (0x0100#16).toNat / 256 = 1 ∧ (0x01FF#16).toNat / 256 = 1 ∧ (0x0200#16).toNat / 256 = 2 ∧ (0x02FF#16).toNat / 256 = 2 ∧
    (0x0300#16).toNat = 768 ∧ (0x0301#16).toNat / 256 ≠ 1 ∧ (0x0301#16).toNat / 256 ≠ 2 ∧ (0x0301#16).toNat ≠ 768 ∧
    (0x00FF#16).toNat / 256 ≠ 1 ∧ (0x00FF#16).toNat / 256 ≠ 2 ∧ (0x00FF#16).toNat ≠ 768 := by decide

/-- StepRunsTheDecodedCommand, StepServesReadsResetAndIdle. -/
theorem witness_Step :
    (Instr.construct 64).wf = true ∧ encode (.construct 64) = some 0x0140 ∧
    ({ State.reset with pending := [.cmd 0x0140, .reset] } : State).pending = .cmd 0x0140 :: [.reset] ∧
    ({ State.reset with pending := [.regRead 0x40] } : State).pending = .regRead 0x40 :: [] ∧
    ({ State.reset with pending := [.reset] } : State).pending = .reset :: [] ∧ State.reset.pending = [] := by decide

/-- ConstructInitializesEveryRegister, ParameterWordHasTheTableFields, UpdateClosedForm, HashIsTheComposition,
HashAnswersTheDigestOfTheMessage: the edges of the legal sizes, and of the illegal ones. -/
theorem witness_output_sizes :
    (1 ≤ (1#8).toNat ∧ (1#8).toNat ≤ 64) ∧ (1 ≤ (64#8).toNat ∧ (64#8).toNat ≤ 64) ∧
    ¬(1 ≤ (0#8).toNat ∧ (0#8).toNat ≤ 64) ∧ ¬(1 ≤ (65#8).toNat ∧ (65#8).toNat ≤ 64) ∧
    ¬(1 ≤ (255#8).toNat ∧ (255#8).toNat ≤ 64) := by decide

/-- ConstructForgetsThePast. -/
theorem witness_ConstructForgetsThePast :
    outputSizeLegal 1 = true ∧ outputSizeLegal 64 = true ∧ outputSizeLegal 0 = false ∧ outputSizeLegal 65 = false := by decide

/-- AbsorbStoresOneByte, FinalizeCompressesThePaddedTail, AbsorbBeyondTheBufferStops, ResponseMatrix, UpdateEqualsTheBlockwiseForm: the
phases and the edges of `bufferLength`. -/
theorem witness_phases_and_lengths :
    State.reset.engine.phase = .idle ∧ (testDone 64 0).engine.phase = .done ∧
    (testActive 0 []).engine.phase = .active ∧ (testActive 0 []).engine.buffer.wf = true ∧
    (testActive 0 []).engine.bufferLength.toNat < 128 ∧
    (testActive 127 [(126, 7)]).engine.phase = .active ∧ (testActive 127 [(126, 7)]).engine.buffer.wf = true ∧
    (testActive 127 [(126, 7)]).engine.bufferLength.toNat < 128 ∧
    (testActive 128 [(127, 7)]).engine.phase = .active ∧ (testActive 128 [(127, 7)]).engine.buffer.wf = true ∧
    (testActive 128 [(127, 7)]).engine.bufferLength = 128 ∧ (testActive 128 [(127, 7)]).engine.bufferLength.toNat ≤ 128 ∧
    (testActive 129 []).engine.phase = .active ∧ 128 < (testActive 129 []).engine.bufferLength.toNat ∧
    (testActive 255 []).engine.phase = .active ∧ 128 < (testActive 255 []).engine.bufferLength.toNat := by decide

/-- AbsorbLeavesTheRestUnchanged: a next state in each phase and on each side of the flush. -/
theorem witness_AbsorbLeavesTheRestUnchanged :
    (∃ t, exec (.absorb 9) State.reset = .next t) ∧ (∃ t, exec (.absorb 9) (testDone 64 0) = .next t) ∧
    (∃ t, exec (.absorb 9) (testActive 127 []) = .next t) ∧ (testActive 127 []).engine.bufferLength ≠ 128 ∧
    (∃ t, exec (.absorb 9) (testActive 128 []) = .next t) ∧ (testActive 128 []).engine.bufferLength = 128 :=
  ⟨⟨_, rfl⟩, ⟨_, rfl⟩, ⟨_, rfl⟩, by decide, ⟨_, rfl⟩, by decide⟩

/-- FinalizeLeavesTheRestUnchanged: a next state in each phase. -/
theorem witness_FinalizeLeavesTheRestUnchanged :
    (∃ t, exec .finalize State.reset = .next t) ∧ (∃ t, exec .finalize (testActive 5 []) = .next t) ∧
    ∃ t, exec .finalize (testDone 64 0) = .next t :=
  ⟨⟨_, rfl⟩, ⟨_, rfl⟩, ⟨_, rfl⟩⟩

/-- IllegalWordsAreRejectedInEveryPhase. -/
theorem witness_IllegalWords :
    decode 0x0000 = .illegal 0x0000 ∧ decode 0x0301 = .illegal 0x0301 ∧ decode 0xFFFF = .illegal 0xFFFF := by decide

/-- RejectionChangesNothingButErr: one word of each cause. -/
theorem witness_RejectionChangesNothingButErr :
    (∃ t, exec (decode 0x0141) (testActive 3 []) = .next t ∧ t.lastResponse = some .badOutputSize) ∧
    (∃ t, exec (decode 0x0300) (testDone 64 0) = .next t ∧ t.lastResponse = some .alreadyFinalized) ∧
    (∃ t, exec (decode 0x0261) State.reset = .next t ∧ t.lastResponse = some .notConstructed) ∧
    (∃ t, exec (decode 0x0400) State.reset = .next t ∧ t.lastResponse = some .illegalCommand) ∧
    Code.badOutputSize ≠ .ok ∧ Code.alreadyFinalized ≠ .ok ∧ Code.notConstructed ≠ .ok ∧ Code.illegalCommand ≠ .ok :=
  ⟨⟨_, rfl, rfl⟩, ⟨_, rfl, rfl⟩, ⟨_, rfl, rfl⟩, ⟨_, rfl, rfl⟩, by decide, by decide, by decide, by decide⟩

/-- ErrKeepsTheFirstCause: a code kept, a code latched, and a code cleared. -/
theorem witness_ErrKeepsTheFirstCause :
    (∃ t, step { (State.reset.reject .notConstructed) with pending := [.cmd 0x0000] } = .next t ∧
      (State.reset.reject .notConstructed).engine.err ≠ .ok ∧ t.engine.err = .notConstructed) ∧
    (∃ t, step { State.reset with pending := [.cmd 0x0000] } = .next t ∧ State.reset.engine.err = .ok ∧ t.engine.err ≠ .ok) ∧
    (∃ t, step { (State.reset.reject .notConstructed) with pending := [.cmd 0x0140] } = .next t ∧
      decode 0x0140 = .construct 64 ∧ t.engine.err = .ok) ∧
    ∃ t, step { (State.reset.reject .notConstructed) with pending := [.reset] } = .next t ∧ t.engine.err = .ok :=
  ⟨⟨_, rfl, by decide, rfl⟩, ⟨_, rfl, rfl, by decide⟩, ⟨_, rfl, by decide, rfl⟩, ⟨_, rfl, rfl⟩⟩

/-- ControlDoesNotDependOnData. -/
theorem witness_ControlDoesNotDependOnData :
    ([1, 2] : List Byte).length = ([3, 4] : List Byte).length ∧ (∃ t, exec (.update [1, 2]) (testActive 127 []) = .next t) ∧
    ∃ u, exec (.update [3, 4]) (testActive 127 []) = .next u :=
  ⟨rfl, ⟨_, rfl⟩, ⟨_, rfl⟩⟩

/-- DigestDependsOnSizeAndBytesOnly: a read, an ABSORB, a rejected CONSTRUCT and an illegal word between the two ends. -/
theorem witness_DigestDependsOnSizeAndBytesOnly :
    ∀ a ∈ [HostAction.regRead 0x40, .cmd 0x0261, .cmd 0x0100, .cmd 0x0301], (∃ r, a = .regRead r) ∨
      ∃ w, a = .cmd w ∧ decode w ≠ .finalize ∧ ∀ arg, decode w = .construct arg → ¬(1 ≤ arg.toNat ∧ arg.toNat ≤ 64) := by
  intro a ha
  simp only [List.mem_cons, List.not_mem_nil, or_false] at ha
  obtain rfl | rfl | rfl | rfl := ha
  · exact .inl ⟨_, rfl⟩
  · refine .inr ⟨_, rfl, by decide, fun arg h => ?_⟩
    rw [show decode 0x0261 = .absorb 0x61 by decide] at h; cases h
  · refine .inr ⟨_, rfl, by decide, fun arg h => ?_⟩
    rw [show decode 0x0100 = .construct 0 by decide] at h; cases h; decide
  · refine .inr ⟨_, rfl, by decide, fun arg h => ?_⟩
    rw [show decode 0x0301 = .illegal 0x0301 by decide] at h; cases h

/-- RowsRunAsTheirHostActions: the seven rows that a host can issue. -/
theorem witness_RowsRunAsTheirHostActions :
    (hostActions 0 (.construct 64)).isSome ∧ (Instr.construct 64).wf = true ∧ (hostActions 0 (.absorb 1)).isSome ∧
    (Instr.absorb 1).wf = true ∧ (hostActions 0 .finalize).isSome ∧ Instr.finalize.wf = true ∧
    (hostActions 0 (.illegal 0x0301)).isSome ∧ (Instr.illegal 0x0301).wf = true ∧ hostActions 0 (.update []) = some [] ∧
    (Instr.update []).wf = true ∧ hostActions 0 (.hash 65 [1]) = some [.cmd 0x0141] ∧ (Instr.hash 65 [1]).wf = true ∧
    hostActions 1 (.hash 1 [7]) = some [.cmd 0x0101, .cmd 0x0207, .cmd 0x0300, .regRead 0x40] ∧
    hostActions 2 .readDigest = some [.regRead 0x40, .regRead 0x41] ∧ Instr.readDigest.wf = true := by decide

/-- MixingFunctionResult, MixingFunctionIsABijection, DisjointApplicationsOfGCommute: the last of each step's quadruples, and two of a
column step. -/
theorem witness_distinct_indices :
    [(3 : Fin 16), 7, 11, 15].Nodup ∧ [(3 : Fin 16), 4, 9, 14].Nodup ∧ [(0 : Fin 16), 4, 8, 12, 3, 7, 11, 15].Nodup := by decide

/-- RotationMovesEveryBit: the edges of both numbers. -/
theorem witness_RotationMovesEveryBit : 0 < 1 ∧ 1 < 64 ∧ 0 < 63 ∧ 63 < 64 ∧ 0 < 64 := by decide

/-- MemWriteStoresLittleEndian and MemReadReturnsTheBytes: the last byte and the last word of the space, and one past it. -/
theorem witness_memory_ranges :
    Buffer.wf [(0, 1), (127, 255)] = true ∧ 127 + 1 ≤ 128 ∧ 120 + 8 ≤ 128 ∧ 128 + 0 ≤ 128 ∧ 128 < 121 + 8 ∧ 128 < 128 + 1 := by decide

/-- DigestWindowIsAViewOfTheChain: both values of the window; an ABSORB, an illegal word and the edges of the rejected CONSTRUCTs; the
edges of the accepted ones. -/
theorem witness_DigestWindowIsAViewOfTheChain :
    (testDone 1 0x78).engine.phase = .done ∧ (testDone 1 0x78).engine.regRead 0x40 = 0x78 ∧
    (testDone 1 0x78).engine.regRead 0x41 = 0x00 ∧
    (∀ w ∈ [0x0261#16, 0x0301#16, 0x0100#16, 0x0141#16], ∀ arg, decode w = .construct arg →
      ¬(1 ≤ arg.toNat ∧ arg.toNat ≤ 64)) ∧
    (decode 0x0101 = .construct 1 ∧ 1 ≤ (1#8).toNat ∧ (1#8).toNat ≤ 64) ∧
    (decode 0x0140 = .construct 64 ∧ 1 ≤ (64#8).toNat ∧ (64#8).toNat ≤ 64) := by
  refine ⟨rfl, by decide, by decide, fun w hw arg h => ?_, by decide, by decide⟩
  simp only [List.mem_cons, List.not_mem_nil, or_false] at hw
  obtain rfl | rfl | rfl | rfl := hw
  · rw [show decode 0x0261#16 = .absorb 0x61 by decide] at h; cases h
  · rw [show decode 0x0301#16 = .illegal 0x0301 by decide] at h; cases h
  · rw [show decode 0x0100#16 = .construct 0 by decide] at h; cases h; decide
  · rw [show decode 0x0141#16 = .construct 65 by decide] at h; cases h; decide

/-- ReservedRegistersReadZero: the edges of both ranges. -/
theorem witness_ReservedRegistersReadZero :
    (0x01 ≤ (0x01#8).toNat ∧ (0x01#8).toNat ≤ 0x3F) ∧ (0x01 ≤ (0x3F#8).toNat ∧ (0x3F#8).toNat ≤ 0x3F) ∧
    (0x80 ≤ (0x80#8).toNat ∧ (0x80#8).toNat ≤ 0xFF) ∧ (0x80 ≤ (0xFF#8).toNat ∧ (0xFF#8).toNat ≤ 0xFF) := by decide

/-- DigestStaysUntilConstructOrReset: a read, a FINALIZE, an ABSORB and a rejected CONSTRUCT in DONE. -/
theorem witness_DigestStaysUntilConstructOrReset :
    (testDone 64 0).engine.phase = .done ∧
    ∀ a ∈ [HostAction.regRead 0x40, .cmd 0x0300, .cmd 0x0261, .cmd 0x0141], (∃ r, a = .regRead r) ∨
      ∃ w, a = .cmd w ∧ ∀ arg, decode w = .construct arg → ¬(1 ≤ arg.toNat ∧ arg.toNat ≤ 64) := by
  refine ⟨rfl, fun a ha => ?_⟩
  simp only [List.mem_cons, List.not_mem_nil, or_false] at ha
  obtain rfl | rfl | rfl | rfl := ha
  · exact .inl ⟨_, rfl⟩
  · refine .inr ⟨_, rfl, fun arg h => ?_⟩
    rw [show decode 0x0300 = .finalize by decide] at h; cases h
  · refine .inr ⟨_, rfl, fun arg h => ?_⟩
    rw [show decode 0x0261 = .absorb 0x61 by decide] at h; cases h
  · refine .inr ⟨_, rfl, fun arg h => ?_⟩
    rw [show decode 0x0141 = .construct 65 by decide] at h; cases h; decide

/-- An engine in each phase that meets the invariant; the ACTIVE one has a full block waiting. -/
theorem witness_Inv_active (acts : List HostAction) : ({ (testActive 128 [(127, 7)]) with pending := acts } : State).Inv := by
  unfold State.Inv
  constructor <;> simp [testActive, constructed, Buffer.wf, Buffer.wfFrom, Engine.t]

theorem witness_Inv_done (acts : List HostAction) : ({ (testDone 64 5) with pending := acts } : State).Inv := by
  unfold State.Inv
  constructor <;> simp [testDone, constructed, Buffer.wf, Buffer.wfFrom, Engine.t, State.reset]

theorem witness_Inv_idle (acts : List HostAction) : ({ State.reset with pending := acts } : State).Inv := by
  unfold State.Inv
  constructor <;> simp [State.reset, Engine.reset, Buffer.wf, Buffer.wfFrom]

/-- EveryStepKeepsTheInvariant, NoRunStops and PhaseTransitionsAreTheTables: from states that meet the invariant, a flush, a FINALIZE, a
CONSTRUCT in DONE, a rejection, a read, a reset and an idle step. -/
theorem witness_EveryStepKeepsTheInvariant :
    (∃ t, step { (testActive 128 [(127, 7)]) with pending := [.cmd 0x0201] } = .next t) ∧
    (∃ t, step { (testActive 128 [(127, 7)]) with pending := [.cmd 0x0300] } = .next t) ∧
    (∃ t, step { (testDone 64 5) with pending := [.cmd 0x0120] } = .next t) ∧
    (∃ t, step { State.reset with pending := [.cmd 0x0300] } = .next t) ∧
    (∃ t, step { (testDone 64 5) with pending := [.regRead 0x40] } = .next t) ∧
    (∃ t, step { (testDone 64 5) with pending := [.reset] } = .next t) ∧ ∃ t, step State.reset = .next t :=
  ⟨⟨_, rfl⟩, ⟨_, rfl⟩, ⟨_, rfl⟩, ⟨_, rfl⟩, ⟨_, rfl⟩, ⟨_, rfl⟩, ⟨_, rfl⟩⟩

/-- RegistersChangeOnlyByTheirWriters and CounterNeverDecreases: a flush and a FINALIZE meet the hypotheses of both, with the count at the
edge of its range. -/
theorem witness_RegistersChangeOnlyByTheirWriters :
    (∀ w arg rest, [HostAction.cmd 0x0201] = .cmd w :: rest → decode w = .construct arg →
      ¬(1 ≤ arg.toNat ∧ arg.toNat ≤ 64)) ∧
    (∀ w arg rest, [HostAction.cmd 0x0300] = .cmd w :: rest → decode w = .construct arg →
      ¬(1 ≤ arg.toNat ∧ arg.toNat ≤ 64)) ∧
    (∀ rest, [HostAction.cmd 0x0201] ≠ .reset :: rest) ∧ (∀ rest, [HostAction.cmd 0x0300] ≠ .reset :: rest) ∧
    (testActive 128 [(127, 7)]).engine.t.toNat + 256 ≤ 2 ^ 128 ∧
    ({ Engine.reset with counter0 := 0xFFFFFFFFFFFFFF00, counter1 := 0xFFFFFFFFFFFFFFFF } : Engine).t.toNat + 256 ≤ 2 ^ 128 := by
  refine ⟨fun w arg rest h hd => ?_, fun w arg rest h hd => ?_, by simp, by simp, by decide, by decide⟩
  · injection h with h _; injection h with h; subst h
    rw [show decode 0x0201 = .absorb 1 by decide] at hd; cases hd
  · injection h with h _; injection h with h; subst h
    rw [show decode 0x0300 = .finalize by decide] at hd; cases hd

/-- EnginesAreIndependent: two engines, a CONSTRUCT on one and an ABSORB on the other. -/
theorem witness_EnginesAreIndependent :
    Config.ok ⟨2⟩ ∧ (1 : Fin 2) ≠ 0 ∧
    ∃ sys : System ⟨2⟩, (∃ t, sys.stepAt (0 : Fin 2) = .next t) ∧ ∃ t, sys.runOrder [(0 : Fin 2), (1 : Fin 2)] = .next t :=
  ⟨by decide, by decide, #v[{ State.reset with pending := [.cmd 0x0140] }, { (testActive 0 []) with pending := [.cmd 0x0261] }],
    ⟨_, rfl⟩, ⟨_, rfl⟩⟩

/-- ExpansionsRunTheirRows and HashExpansionGoesOnAfterARejection: the edges of the legal and the illegal sizes, and each phase. -/
theorem witness_HashExpansion :
    (1 ≤ (1#8).toNat ∧ (1#8).toNat ≤ 64) ∧ (1 ≤ (64#8).toNat ∧ (64#8).toNat ≤ 64) ∧
    ¬(1 ≤ (0#8).toNat ∧ (0#8).toNat ≤ 64) ∧ ¬(1 ≤ (65#8).toNat ∧ (65#8).toNat ≤ 64) ∧
    State.reset.engine.phase = .idle ∧ (testDone 2 0x6a78).engine.phase = .done ∧
    (testActive 128 [(127, 7)]).engine.phase = .active ∧ (testActive 128 [(127, 7)]).engine.bufferLength.toNat ≤ 128 := by decide

/-- HexHasTwoDigitsAByte. -/
theorem witness_HexHasTwoDigitsAByte : 0 < ([0xFF] : List Byte).length ∧ hexEncode [0xFF] = ['f', 'f'] := by decide

end Sys2Proof.Machine
end

section
/-! PROOF. The rotation of 00_scope.md R7, bit by bit. -/

namespace Sys2Proof.Machine

/-- Settles O34: `rotr64` is the library's rotation. A bit below `64 - n` comes from `n` places higher; any other comes from the
low end of the word, where `i + n` has passed 64 once. -/
theorem rotationMovesEveryBit : Obligations.RotationMovesEveryBit := by
  intro x n i _ hn hi
  rw [rotr64_eq_rotateRight x n hn, BitVec.getLsbD_rotateRight_of_lt hn]
  by_cases hlow : i < 64 - n
  · have hmod : (i + n) % 64 = n + i := by omega
    simp [hlow, hmod]
  · have hmod : (i + n) % 64 = i - (64 - n) := by omega
    simp [hlow, hi, hmod]

end Sys2Proof.Machine
end

section
/-! PROOF. The 128-bit counter (10_state.md R25, R27): the value of the two words, and what each operation does to it. -/

namespace Sys2Proof.Machine

variable (e : Engine)

theorem Engine.t_toNat : e.t.toNat = e.counter1.toNat * 2 ^ 64 + e.counter0.toNat := by
  unfold Engine.t
  rw [BitVec.toNat_append, ← Nat.shiftLeft_add_eq_or_of_lt e.counter0.isLt, Nat.shiftLeft_eq]

/-- The low word's sum is below the addend exactly when it wrapped, so the carry makes the two words one integer. -/
theorem Engine.advanceCounter_t (k : BitVec 8) : (e.advanceCounter k).t = e.t + k.setWidth 128 := by
  apply BitVec.eq_of_toNat_eq
  have hlow := e.counter0.isLt
  have hhigh := e.counter1.isLt
  have hk := k.isLt
  have hk64 : (k.setWidth 64).toNat = k.toNat := by simp; omega
  have hk128 : (k.setWidth 128).toNat = k.toNat := by simp; omega
  rw [BitVec.toNat_add, Engine.t_toNat, Engine.t_toNat, Engine.advanceCounter_counter0, Engine.advanceCounter_counter1,
    BitVec.toNat_add, BitVec.toNat_add, hk64, hk128, carryOut]
  have hsum : (e.counter0 + k.setWidth 64).toNat = (e.counter0.toNat + k.toNat) % 2 ^ 64 := by rw [BitVec.toNat_add, hk64]
  by_cases hwrap : e.counter0 + k.setWidth 64 < k.setWidth 64
  · rw [if_pos hwrap, show (1 : Word).toNat = 1 from rfl]
    rw [BitVec.lt_def, hsum, hk64] at hwrap
    omega
  · rw [if_neg hwrap, show (0 : Word).toNat = 0 from rfl]
    rw [BitVec.lt_def, hsum, hk64] at hwrap
    omega

/-- Settles O38: the low word's sum and the untouched registers are the definition's own. -/
theorem counterIsOne128BitInteger : Obligations.CounterIsOne128BitInteger :=
  fun e k => ⟨e.advanceCounter_t k, rfl, rfl⟩

theorem Engine.advanceCounter_t_le (k : BitVec 8) (h : e.t.toNat + 256 ≤ 2 ^ 128) :
    e.t.toNat ≤ (e.advanceCounter k).t.toNat := by
  have hk := k.isLt
  have hk128 : (k.setWidth 128).toNat = k.toNat := by simp; omega
  rw [Engine.advanceCounter_t, BitVec.toNat_add, hk128]
  omega

@[simp] theorem Engine.latchErr_t (code : Code) : (e.latchErr code).t = e.t := by simp [Engine.t]

theorem Engine.flush_t : e.flush.t = if e.bufferLength = 128 then (e.advanceCounter 128).t else e.t := by
  unfold Engine.flush; split <;> rfl

@[simp] theorem Engine.absorbed_t (b : Byte) : (e.absorbed b).t = e.flush.t := rfl

@[simp] theorem Engine.finalize_t : e.finalize.t = (e.advanceCounter e.bufferLength).t := rfl

/-- A flush counts one whole block. -/
theorem Engine.flush_t_mod : e.flush.t.toNat % 128 = e.t.toNat % 128 := by
  rw [Engine.flush_t]
  split
  · rw [Engine.advanceCounter_t, BitVec.toNat_add, show ((128 : BitVec 8).setWidth 128).toNat = 128 from rfl]
    omega
  · rfl

end Sys2Proof.Machine
end

section
/-! PROOF. ABSORB and FINALIZE: what they leave unchanged (10_state.md R40; 20_memory.md R65). -/

namespace Sys2Proof.Machine

variable (e : Engine) (b : Byte)

@[simp] theorem Engine.absorbed_finalizationFlags0 : (e.absorbed b).finalizationFlags0 = e.finalizationFlags0 :=
  e.flush_finalizationFlags0
@[simp] theorem Engine.absorbed_finalizationFlags1 : (e.absorbed b).finalizationFlags1 = e.finalizationFlags1 :=
  e.flush_finalizationFlags1
@[simp] theorem Engine.absorbed_outputSize : (e.absorbed b).outputSize = e.outputSize := e.flush_outputSize
@[simp] theorem Engine.absorbed_phase : (e.absorbed b).phase = e.phase := e.flush_phase
@[simp] theorem Engine.absorbed_err : (e.absorbed b).err = e.err := e.flush_err
@[simp] theorem Engine.absorbed_buffer : (e.absorbed b).buffer = e.buffer.put e.flush.appendAddress b := rfl

theorem Engine.absorbed_of_ne (h : e.bufferLength ≠ 128) :
    e.absorbed b = { e with buffer := e.buffer.put e.bufferLength.toNat b, bufferLength := e.bufferLength + 1 } := by
  rw [Engine.absorbed, e.flush_of_ne h]

/-- The append finds room, so the length does not wrap. -/
theorem Engine.absorbed_bufferLength_toNat (h : e.bufferLength.toNat ≤ 128) :
    (e.absorbed b).bufferLength.toNat = e.flush.bufferLength.toNat + 1 := by
  have hroom := e.flush_bufferLength_lt h
  change (e.flush.bufferLength + 1).toNat = _
  rw [BitVec.toNat_add, show (1 : BitVec 8).toNat = 1 from rfl]
  omega

theorem exec_absorb (b : Byte) (s : State) : exec (.absorb b) s = execAbsorb b s := rfl

theorem exec_finalize (s : State) : exec .finalize s = execFinalize s := rfl

/-- Everything FINALIZE can do when it answers a next state. -/
theorem execFinalize_cases {s t : State} (h : execFinalize s = .next t) :
    (s.engine.phase = .idle ∧ t = s.reject .notConstructed) ∨
    (s.engine.phase = .active ∧ t = s.accept s.engine.finalize) ∨
    (s.engine.phase = .done ∧ t = s.reject .alreadyFinalized) := by
  cases hp : s.engine.phase with
  | idle => rw [execFinalize_idle s hp] at h; injection h with h; exact .inl ⟨rfl, h.symm⟩
  | active => rw [execFinalize_active s hp] at h; injection h with h; exact .inr (.inl ⟨rfl, h.symm⟩)
  | done => rw [execFinalize_done s hp] at h; injection h with h; exact .inr (.inr ⟨rfl, h.symm⟩)

theorem Engine.pad_get_other (a : Nat) (h : a ∉ e.fillAddresses) : e.pad.buffer.get a = e.buffer.get a :=
  Buffer.get_fill_other e.fillAddresses e.buffer a h

/-- Settles O11: a rejection changes `err` alone; an accepted ABSORB is `absorbed`, whose one store is at the append address. -/
theorem absorbLeavesTheRestUnchanged : Obligations.AbsorbLeavesTheRestUnchanged := by
  intro b s t h
  rw [exec_absorb] at h
  obtain ⟨hp, rfl⟩ | ⟨hp, -, rfl⟩ | ⟨hp, rfl⟩ := execAbsorb_cases h
  · simp [hp]
  · have hstore : ∀ a, a ≠ s.engine.flush.appendAddress →
        (s.engine.absorbed b).buffer.get a = s.engine.buffer.get a :=
      fun a ha => Buffer.get_put_other s.engine.buffer _ a b ha
    have hnoflush (hl : s.engine.bufferLength ≠ 128) : (s.engine.absorbed b).chain = s.engine.chain ∧
        (s.engine.absorbed b).counter0 = s.engine.counter0 ∧ (s.engine.absorbed b).counter1 = s.engine.counter1 := by
      simp [s.engine.absorbed_of_ne b hl]
    simpa [hp] using ⟨hstore, hnoflush⟩
  · simp [hp]

/-- Settles O14: a rejection changes `err` alone; an accepted FINALIZE stores at the fill addresses only. -/
theorem finalizeLeavesTheRestUnchanged : Obligations.FinalizeLeavesTheRestUnchanged := by
  intro s t h
  rw [exec_finalize] at h
  obtain ⟨hp, rfl⟩ | ⟨hp, rfl⟩ | ⟨hp, rfl⟩ := execFinalize_cases h
  · simp [hp]
  · simpa [hp] using s.engine.pad_get_other
  · simp [hp]

end Sys2Proof.Machine
end

section
/-! PROOF. The invariant of 10_state.md R36: it holds after reset and each operation keeps it, so every step does. -/

namespace Sys2Proof.Machine

variable {e : Engine}

theorem Engine.inv_reset : Engine.reset.Inv := by
  constructor <;> simp [Engine.reset, Buffer.wf, Buffer.wfFrom]

theorem Engine.inv_constructed {arg : Byte} (h : outputSizeLegal arg = true) : (constructed arg).Inv := by
  rw [outputSizeLegal_iff] at h
  have hsize : (arg.setWidth 7).toNat = arg.toNat := by simp; omega
  constructor <;> simp [constructed, Buffer.wf, Buffer.wfFrom, Engine.t, -BitVec.toNat_setWidth, hsize, h]

theorem Engine.latchErr_err_ne {code x : Code} (he : e.err ≠ x) (hc : code ≠ x) : (e.latchErr code).err ≠ x := by
  rw [Engine.latchErr_err]
  split
  · exact hc
  · exact he

/-- A rejection keeps the invariant when its code is one that the phase can raise (R36 item 11). -/
theorem Engine.Inv.latchErr {code : Code} (h : e.Inv) (hnot : code = .notConstructed → e.phase = .idle)
    (hfin : code = .alreadyFinalized → e.phase = .done) : (e.latchErr code).Inv where
  buffer_wf := by simpa using h.buffer_wf
  length_le := by simpa using h.length_le
  size_legal := by simpa using h.size_legal
  flag_high := by simpa using h.flag_high
  flag_active := by simpa using h.flag_active
  flag_done := by simpa using h.flag_done
  count_blocks := by simpa using h.count_blocks
  tail_nonempty := by simpa using h.tail_nonempty
  err_idle hp := by
    rw [Engine.latchErr_phase] at hp
    exact Engine.latchErr_err_ne (h.err_idle hp) fun hc => by simp [hfin hc] at hp
  err_active hp := by
    rw [Engine.latchErr_phase] at hp
    obtain ⟨hnotFinal, hnotIdle⟩ := h.err_active hp
    exact ⟨Engine.latchErr_err_ne hnotFinal fun hc => by simp [hfin hc] at hp,
      Engine.latchErr_err_ne hnotIdle fun hc => by simp [hnot hc] at hp⟩
  err_done hp := by
    rw [Engine.latchErr_phase] at hp
    exact Engine.latchErr_err_ne (h.err_done hp) fun hc => by simp [hnot hc] at hp
  idle_zero hp := by
    rw [Engine.latchErr_eq] at hp ⊢
    exact h.idle_zero hp

/-- The flush adds a whole block to the count and makes room, and the append stores inside the buffer and leaves it nonempty. -/
theorem Engine.Inv.absorbed (b : Byte) (h : e.Inv) (hp : e.phase = .active) : (e.absorbed b).Inv := by
  have hroom := e.flush_bufferLength_lt h.length_le
  have hlen := e.absorbed_bufferLength_toNat b h.length_le
  exact {
    buffer_wf := Buffer.put_wf e.buffer _ b h.buffer_wf hroom
    length_le := by omega
    size_legal := by simpa using h.size_legal
    flag_high := by simpa using h.flag_high
    flag_active := by simpa using h.flag_active
    flag_done := by simpa using h.flag_done
    count_blocks := fun _ => by rw [Engine.absorbed_t, Engine.flush_t_mod]; exact h.count_blocks hp
    tail_nonempty := fun _ _ => by omega
    err_idle := by simpa using h.err_idle
    err_active := by simpa using h.err_active
    err_done := by simpa using h.err_done
    idle_zero := by simp [hp] }

/-- FINALIZE sets the flag and pads inside the buffer; DONE has no item about the count (R36 items 5 and 7). -/
theorem Engine.Inv.finalize (h : e.Inv) (hp : e.phase = .active) : e.finalize.Inv where
  buffer_wf := e.pad_wf h.buffer_wf
  length_le := h.length_le
  size_legal _ := h.size_legal (by simp [hp])
  flag_high := h.flag_high
  flag_active := by simp
  flag_done _ := rfl
  count_blocks := by simp
  tail_nonempty := by simp
  err_idle := by simp
  err_active := by simp
  err_done _ := (h.err_active hp).2
  idle_zero := by simp

theorem CommandEffect.inv {w : CmdWord} {s t : State} (hc : CommandEffect w s t) (h : s.Inv) : t.Inv := by
  unfold State.Inv at h ⊢
  cases hc with
  | constructRejected arg hd hl ht => subst ht; exact h.latchErr (by simp) (by simp)
  | constructAccepted arg hd hl ht => subst ht; exact Engine.inv_constructed hl
  | idleRejected hd hp ht => subst ht; exact h.latchErr (fun _ => hp) (by simp)
  | doneRejected hd hp ht => subst ht; exact h.latchErr (by simp) (fun _ => hp)
  | absorbAccepted b hd hp hl ht => subst ht; exact h.absorbed b hp
  | finalizeAccepted hd hp ht => subst ht; exact h.finalize hp
  | illegalRejected hd ht => subst ht; exact h.latchErr (by simp) (by simp)

/-- Settles O46: a command keeps the invariant, a reset establishes it, and nothing else writes the engine. -/
theorem everyStepKeepsTheInvariant : Obligations.EveryStepKeepsTheInvariant := by
  intro s t h hstep
  cases step_cases hstep with
  | idle hq ht => exact ht ▸ h
  | command w rest hq hc => exact hc.inv h
  | read n rest hq ht => subst ht; exact h
  | reset rest hq ht => subst ht; exact Engine.inv_reset

/-- Settles O45: the machine's reset state holds the engine of R39. -/
theorem resetMeetsTheInvariant : Obligations.ResetMeetsTheInvariant := Engine.inv_reset

end Sys2Proof.Machine
end

section
/-! PROOF. Which step writes which register (10_state.md R21 to R31, R40): the transitions of `phase`, and what a step within one
computation can do. -/

namespace Sys2Proof.Machine

/-- Settles O48: only an accepted CONSTRUCT, an accepted FINALIZE and a reset write `phase`. -/
theorem phaseTransitionsAreTheTables : Obligations.PhaseTransitionsAreTheTables := by
  refine ⟨by decide, fun s t h => ?_⟩
  cases step_cases h with
  | idle hq ht => simp [hq, ht]
  | read n rest hq ht => simp [hq, ht]
  | reset rest hq ht => simp [hq, ht, Engine.reset]
  | command w rest hq hc =>
    cases hc with
    | constructRejected arg hd hl ht => simp [hq, hd, ht, ← outputSizeLegal_iff, hl]
    | constructAccepted arg hd hl ht => simp [hq, hd, ht, ← outputSizeLegal_iff, hl, constructed]
    | idleRejected hd hp ht =>
      change s.engine.phase = .idle at hp
      obtain ⟨b, hd⟩ | hd := hd <;> simp [hq, hd, ht, hp]
    | doneRejected hd hp ht =>
      change s.engine.phase = .done at hp
      obtain ⟨b, hd⟩ | hd := hd <;> simp [hq, hd, ht, hp]
    | absorbAccepted b hd hp hl ht => simp [hq, hd, ht]
    | finalizeAccepted hd hp ht =>
      change s.engine.phase = .active at hp
      simp [hq, hd, ht, hp]
    | illegalRejected hd ht => simp [hq, hd, ht]

/-- Everything a step within one computation, neither a reset nor an accepted CONSTRUCT, can do to the registers. -/
inductive ComputationEffect (s t : State) : Prop where
  | errOnly (code : Code) (he : t.engine = { s.engine with err := code })
  | absorbed (w : CmdWord) (b : Byte) (rest : List HostAction) (hq : s.pending = .cmd w :: rest) (hd : decode w = .absorb b)
      (hp : s.engine.phase = .active) (he : t.engine = s.engine.absorbed b)
  | finalized (w : CmdWord) (rest : List HostAction) (hq : s.pending = .cmd w :: rest) (hd : decode w = .finalize)
      (hp : s.engine.phase = .active) (he : t.engine = s.engine.finalize)

theorem step_within_computation {s t : State} (h : step s = .next t) (hreset : ∀ rest, s.pending ≠ .reset :: rest)
    (hconstruct : ∀ w arg rest, s.pending = .cmd w :: rest → decode w = .construct arg →
      ¬(1 ≤ arg.toNat ∧ arg.toNat ≤ 64)) :
    t.work = s.work ∧ ComputationEffect s t := by
  cases step_cases h with
  | idle hq ht => subst ht; exact ⟨rfl, .errOnly _ rfl⟩
  | read n rest hq ht => subst ht; exact ⟨rfl, .errOnly _ rfl⟩
  | reset rest hq ht => exact absurd hq (hreset rest)
  | command w rest hq hc =>
    cases hc with
    | constructRejected arg hd hl ht => subst ht; exact ⟨rfl, .errOnly _ (Engine.latchErr_eq _ _)⟩
    | constructAccepted arg hd hl ht => exact absurd ((outputSizeLegal_iff arg).1 hl) (hconstruct w arg rest hq hd)
    | idleRejected hd hp ht => subst ht; exact ⟨rfl, .errOnly _ (Engine.latchErr_eq _ _)⟩
    | doneRejected hd hp ht => subst ht; exact ⟨rfl, .errOnly _ (Engine.latchErr_eq _ _)⟩
    | absorbAccepted b hd hp hl ht => subst ht; exact ⟨rfl, .absorbed w b rest hq hd hp rfl⟩
    | finalizeAccepted hd hp ht => subst ht; exact ⟨rfl, .finalized w rest hq hd hp rfl⟩
    | illegalRejected hd ht => subst ht; exact ⟨rfl, .errOnly _ (Engine.latchErr_eq _ _)⟩

/-- Settles O49: without a waiting full block an ABSORB stores and counts in the buffer alone. -/
theorem registersChangeOnlyByTheirWriters : Obligations.RegistersChangeOnlyByTheirWriters := by
  intro s t h hreset hconstruct finalizes absorbs
  obtain ⟨hw, heffect⟩ := step_within_computation h hreset hconstruct
  cases heffect with
  | errOnly code he => simp [he, hw]
  | absorbed w b rest hq hd hp he =>
    have habsorbs : absorbs := ⟨hp, w, b, rest, hq, hd⟩
    by_cases hl : s.engine.bufferLength = 128
    · simp [he, hw, habsorbs, hl]
    · rw [s.engine.absorbed_of_ne b hl] at he
      simp [he, hw, habsorbs]
  | finalized w rest hq hd hp he =>
    have hfinalizes : finalizes := ⟨hp, w, rest, hq, hd⟩
    simp [he, hw, hfinalizes]

/-- Settles O50: a step keeps the count or advances it, by 128 or by `bufferLength`. -/
theorem counterNeverDecreases : Obligations.CounterNeverDecreases := by
  intro s t h hreset hconstruct hbound
  obtain ⟨-, heffect⟩ := step_within_computation h hreset hconstruct
  cases heffect with
  | errOnly code he => rw [he]; exact le_rfl
  | absorbed w b rest hq hd hp he =>
    rw [he, Engine.absorbed_t, Engine.flush_t]
    split
    · exact s.engine.advanceCounter_t_le 128 hbound
    · exact le_rfl
  | finalized w rest hq hd hp he =>
    rw [he, Engine.finalize_t]
    exact s.engine.advanceCounter_t_le _ hbound

end Sys2Proof.Machine
end

section
/-! PROOF. The read port (10_state.md R33 to R35) and what it shows after reset (R39). -/

namespace Sys2Proof.Machine

variable (e : Engine)

theorem Engine.regRead_zero : e.regRead 0x00 = e.status := by simp [Engine.regRead]

theorem Engine.regRead_reserved (n : Byte) (h : (0x01 ≤ n.toNat ∧ n.toNat ≤ 0x3F) ∨ (0x80 ≤ n.toNat ∧ n.toNat ≤ 0xFF)) :
    e.regRead n = 0x00 := by
  have hstatus : n ≠ 0x00 := by
    rintro rfl
    exact absurd h (by decide)
  have hwindow : ¬(0x40 ≤ n.toNat ∧ n.toNat ≤ 0x7F) := by omega
  rw [Engine.regRead, if_neg hstatus, dif_neg hwindow]

/-- Settles O41: the read port answers a reserved number with zero, and a read records its answer alone. -/
theorem reservedRegistersReadZero : Obligations.ReservedRegistersReadZero := by
  intro s n hn
  have hread := s.engine.regRead_reserved n hn
  exact ⟨hread, by rw [takeAction, State.readRegister, hread]⟩

/-- The fields of the byte that STATUS puts together, for every `err` and `phase` of its widths. -/
theorem status_fields : ∀ (err : BitVec 3) (phase : BitVec 2),
    (0#3 ++ err ++ phase).extractLsb' 0 2 = phase ∧ (0#3 ++ err ++ phase).extractLsb' 2 3 = err ∧
    (0#3 ++ err ++ phase).extractLsb' 5 3 = 0#3 ∧
    0#3 ++ err ++ phase = (err.setWidth 8 <<< 2) ||| phase.setWidth 8 := by decide

/-- Settles O39: register 0x00 is STATUS, and the concatenation puts each field in its place. -/
theorem statusShowsPhaseAndErr : Obligations.StatusShowsPhaseAndErr := by
  intro e
  rw [Engine.regRead_zero]
  exact status_fields e.err.bits e.phase.bits

theorem wordByte_eq_ushiftRight (x : Word) (k : Nat) : wordByte x k = (x >>> (8 * k)).setWidth 8 := by
  apply BitVec.eq_of_toNat_eq
  simp [wordByte]

theorem Engine.digestRegister_of_not_done (h : e.phase ≠ .done) (j : Fin 64) : e.digestRegister j = 0x00 := by
  simp [Engine.digestRegister, h]

@[simp] theorem Engine.latchErr_digestRegister (code : Code) (j : Fin 64) :
    (e.latchErr code).digestRegister j = e.digestRegister j := by
  simp [Engine.digestRegister]

/-- In DONE every word but an accepted CONSTRUCT is rejected (60_exceptions.md R178). -/
theorem exec_decode_done {w : CmdWord} {s : State} (hp : s.engine.phase = .done)
    (hw : ∀ arg, decode w = .construct arg → ¬(1 ≤ arg.toNat ∧ arg.toNat ≤ 64)) :
    ∃ code, exec (decode w) s = .next (s.reject code) := by
  obtain ⟨arg, hd⟩ | ⟨b, hd⟩ | hd | hd := decode_cases w <;> rw [hd]
  · have hl : outputSizeLegal arg = false := by
      rw [Bool.eq_false_iff, ne_eq, outputSizeLegal_iff]
      exact hw arg hd
    exact ⟨_, execConstruct_of_illegal arg s hl⟩
  · exact ⟨_, execAbsorb_done b s hp⟩
  · exact ⟨_, execFinalize_done s hp⟩
  · exact ⟨_, rfl⟩

/-- Settles O40: in DONE a word that is no accepted CONSTRUCT is rejected, and a rejection changes nothing the window shows. -/
theorem digestWindowIsAViewOfTheChain : Obligations.DigestWindowIsAViewOfTheChain := by
  refine ⟨fun e j => ?_, fun w s hp hw => ?_, fun w arg s hp hd hlow hhigh => ?_⟩
  · rw [Engine.regRead_window, Engine.digestRegister, chainByte, wordByte_eq_ushiftRight]
  · obtain ⟨code, hexec⟩ := exec_decode_done hp hw
    exact ⟨_, hexec, by simp, by simp [hp], fun j => by simp [Engine.regRead_window]⟩
  · have hl : outputSizeLegal arg = true := (outputSizeLegal_iff arg).2 ⟨hlow, hhigh⟩
    refine ⟨_, by rw [hd]; exact execConstruct_of_legal arg s hl, rfl, fun j => ?_⟩
    rw [Engine.regRead_window]
    exact Engine.digestRegister_of_not_done _ (by simp [constructed]) j

/-- Settles O44: in IDLE the window is blank, and every other value is the literal of R39. -/
theorem resetValues : Obligations.ResetValues := by
  have hchain : ∀ i : Fin 8, Engine.reset.chain[i] = 0 := by decide
  have hwindow : ∀ j : Fin 64, Engine.reset.regRead (BitVec.ofNat 8 (0x40 + j.val)) = 0x00 := fun j => by
    rw [Engine.regRead_window]
    exact Engine.digestRegister_of_not_done _ (by decide) j
  exact ⟨hchain, rfl, rfl, rfl, rfl, Buffer.get_nil, rfl, rfl, rfl, rfl, rfl, rfl, rfl, hwindow⟩

end Sys2Proof.Machine
end

section
/-! PROOF. Several engines (10_state.md R41; 60_exceptions.md R192). -/

namespace Sys2Proof.Machine

variable {c : Config}

/-- Everything a step of one engine can do to the system when it answers a next one. -/
theorem System.stepAt_eq_next {i : Fin c.nEngines} {sys sys' : System c} :
    sys.stepAt i = .next sys' ↔ ∃ s, step sys[i] = .next s ∧ sys' = sys.set i s := by
  unfold System.stepAt
  cases step sys[i] <;> simp [eq_comm]

theorem System.runOrder_pair {i j : Fin c.nEngines} {sys sys'' : System c} :
    sys.runOrder [i, j] = .next sys'' ↔ ∃ sys', sys.stepAt i = .next sys' ∧ sys'.stepAt j = .next sys'' := by
  unfold System.runOrder
  cases sys.stepAt i with
  | next sys' =>
    simp only [System.runOrder, Host.Outcome.next.injEq, exists_eq_left']
    cases sys'.stepAt j <;> simp
  | fault r => simp
  | refused r => simp

theorem System.get_set_other {i j : Fin c.nEngines} (sys : System c) (s : State) (h : j ≠ i) :
    (sys.set i s)[j] = sys[j] :=
  Vector.getElem_set_ne i.isLt j.isLt fun hij => h (Fin.ext hij.symm)

/-- The steps of two different engines are the two engines' own steps on the system they started from. -/
theorem System.runOrder_pair_of_ne {i j : Fin c.nEngines} {sys sys'' : System c} (h : j ≠ i) :
    sys.runOrder [i, j] = .next sys'' ↔
      ∃ s s', step sys[i] = .next s ∧ step sys[j] = .next s' ∧ sys'' = (sys.set i s).set j s' := by
  simp only [System.runOrder_pair, System.stepAt_eq_next]
  constructor
  · rintro ⟨_, ⟨s, hi, rfl⟩, s', hj, rfl⟩
    rw [System.get_set_other sys s h] at hj
    exact ⟨s, s', hi, hj, rfl⟩
  · rintro ⟨s, s', hi, hj, rfl⟩
    exact ⟨_, ⟨s, hi, rfl⟩, s', by rwa [System.get_set_other sys s h], rfl⟩

/-- Settles O51: a step writes its own engine's place in the vector, and writes at two places commute. -/
theorem enginesAreIndependent : Obligations.EnginesAreIndependent := by
  intro c i sys sys' h
  obtain ⟨s, hi, rfl⟩ := System.stepAt_eq_next.1 h
  refine ⟨by simpa using hi, fun j hj => System.get_set_other sys s hj, fun j sys'' hj hrun => ?_⟩
  obtain ⟨s₁, s₂, h₁, h₂, rfl⟩ := (System.runOrder_pair_of_ne hj).1 hrun
  exact (System.runOrder_pair_of_ne hj.symm).2
    ⟨s₂, s₁, h₂, h₁, Vector.set_comm _ _ fun hij => hj (Fin.ext hij.symm)⟩

end Sys2Proof.Machine
end

section
/-! PROOF. The block buffer's two access primitives (20_memory.md R52 to R55), ABSORB where MemWrite has no room (R53), and the read
port (R57). -/

namespace Sys2Proof.Machine

variable (m : Buffer) (addr n : Nat)

theorem memRead_eq_some (h : addr + n ≤ 128) : memRead m addr n = some (BitVec.ofNat (8 * n) (m.readLE addr n)) := if_pos h

theorem memRead_eq_none (h : 128 < addr + n) : memRead m addr n = none := if_neg (by omega)

theorem memWrite_eq_some (v : BitVec (8 * n)) (h : addr + n ≤ 128) :
    memWrite m addr n v = some (m.writeLE addr n v.toNat) := if_pos h

/-- Byte `k` of the little-endian value of `n` bytes is the byte at `addr + k`: the value fits its `8n` bits. -/
theorem Buffer.readLE_extractLsb' {k : Nat} (hk : k < n) :
    (BitVec.ofNat (8 * n) (m.readLE addr n)).extractLsb' (8 * k) 8 = m.get (addr + k) := by
  apply BitVec.eq_of_toNat_eq
  rw [BitVec.extractLsb'_toNat, BitVec.toNat_ofNat, Nat.mod_eq_of_lt (m.readLE_lt n addr), Nat.shiftRight_eq_div_pow]
  exact m.readLE_byte n addr k hk

theorem Buffer.get_writeLE_byte (v : BitVec (8 * n)) (hm : m.wf = true) (h : addr + n ≤ 128) {k : Nat} (hk : k < n) :
    (m.writeLE addr n v.toNat).get (addr + k) = v.extractLsb' (8 * k) 8 := by
  rw [Buffer.get_writeLE n m addr v.toNat (addr + k) hm h, if_pos (by omega), Nat.add_sub_cancel_left, BitVec.extractLsb',
    Nat.shiftRight_eq_div_pow]

theorem Buffer.get_writeLE_other (v : Nat) (hm : m.wf = true) (h : addr + n ≤ 128) {a : Nat} (ha : a < addr ∨ addr + n ≤ a) :
    (m.writeLE addr n v).get a = m.get a := by
  rw [Buffer.get_writeLE n m addr v a hm h, if_neg (by omega)]

/-- Settles O35: in range MemWrite is `writeLE`, which keeps the canonical form and reads back the value's bytes in its run and the
old bytes outside it. -/
theorem memWriteStoresLittleEndian : Obligations.MemWriteStoresLittleEndian := fun m addr n v hm h =>
  ⟨m.writeLE addr n v.toNat, memWrite_eq_some m addr n v h, Buffer.writeLE_wf n m addr v.toNat hm h,
    fun _ hk => m.get_writeLE_byte addr n v hm h hk, fun _ ha => m.get_writeLE_other addr n v.toNat hm h ha⟩

/-- Settles O37: in range MemRead is `readLE`, whose bytes are the buffer's; out of range there is no value. -/
theorem memReadReturnsTheBytes : Obligations.MemReadReturnsTheBytes := fun m addr n =>
  ⟨fun h => ⟨_, memRead_eq_some m addr n h, fun _ hk => m.readLE_extractLsb' addr n hk⟩, memRead_eq_none m addr n⟩

theorem messageWords_getElem {i : Nat} (hi : i < 16) : (messageWords m)[i] = BitVec.ofNat 64 (m.readLE (8 * i) 8) := by
  rw [messageWords, Vector.getElem_ofFn, messageWord, wordAddress]

/-- Settles O36: word `i` lies inside the space, and address `a` is byte `a mod 8` of the word read at `8 (a div 8)`. -/
theorem messageWordsAreLittleEndian : Obligations.MessageWordsAreLittleEndian := by
  intro m
  refine ⟨fun i => ?_, fun a => ?_⟩
  · rw [Fin.getElem_fin, messageWords_getElem m i.isLt]
    exact memRead_eq_some m (8 * i.val) 8 (by omega)
  · rw [messageWords_getElem m (by omega)]
    calc (BitVec.ofNat 64 (m.readLE (8 * (a.val / 8)) 8)).extractLsb' (8 * (a.val % 8)) 8
        = m.get (8 * (a.val / 8) + a.val % 8) := m.readLE_extractLsb' _ 8 (Nat.mod_lt _ (by decide))
      _ = m.get a.val := by rw [Nat.div_add_mod]

/-- Settles O12: ABSORB in ACTIVE completes only where the append finds room. -/
theorem absorbBeyondTheBufferStops : Obligations.AbsorbBeyondTheBufferStops := by
  intro b s hp hlen
  rw [exec_absorb, execAbsorb_active b s hp, if_neg (by omega)]

theorem takeAction_regRead (r : Byte) (s : State) :
    takeAction (.regRead r) s = .next { s with outputs := .value (s.engine.regRead r) :: s.outputs } := rfl

/-- Settles O42: a read leaves the engine, from which alone the second read takes its answer. -/
theorem readsHaveNoSideEffect : Obligations.ReadsHaveNoSideEffect := by
  intro r s
  exact ⟨s.readRegister r, takeAction_regRead r s, rfl, by rw [takeAction_regRead, State.readRegister_engine]⟩

end Sys2Proof.Machine
end

section
/-! PROOF. The decoder and the encoder are inverse to each other (30_encoding.md R71, R72, R75, R79, R81). -/

namespace Sys2Proof

theorem decode_commandWord_construct (arg : Byte) : decode (commandWord 0x01 arg) = .construct arg := by
  rw [decode_of_op1 _ (opField_commandWord 0x01 arg), argField_commandWord]

theorem decode_commandWord_absorb (b : Byte) : decode (commandWord 0x02 b) = .absorb b := by
  rw [decode_of_op2 _ (opField_commandWord 0x02 b), argField_commandWord]

theorem decode_commandWord_finalize : decode (commandWord 0x03 0x00) = .finalize :=
  decode_of_finalize _ (opField_commandWord 0x03 0x00) (argField_commandWord 0x03 0x00)

/-- A word is the word of one of the three commands, or matched by none of them. -/
theorem commandWord_or_illegal (w : CmdWord) :
    (∃ arg, w = commandWord 0x01 arg) ∨ (∃ b, w = commandWord 0x02 b) ∨ w = commandWord 0x03 0x00 ∨ isIllegalWord w = true := by
  by_cases h1 : opField w = 0x01
  · exact .inl ⟨argField w, by rw [← h1, commandWord_fields]⟩
  by_cases h2 : opField w = 0x02
  · exact .inr (.inl ⟨argField w, by rw [← h2, commandWord_fields]⟩)
  by_cases h3 : opField w = 0x03 ∧ argField w = 0x00
  · exact .inr (.inr (.inl (by rw [← h3.1, ← h3.2, commandWord_fields])))
  · exact .inr (.inr (.inr ((isIllegalWord_iff w).2 ⟨h1, h2, h3⟩)))

/-- Decoding the word of a well-formed instruction loses nothing: a command's word keeps both its fields, and an ILLEGAL row's word is
one that no command matches. -/
theorem decode_of_encode {i : Instr} {w : CmdWord} (hwf : i.wf = true) (hw : encode i = some w) : decode w = i := by
  cases i <;> simp only [encode, Option.some.injEq, reduceCtorEq] at hw <;> subst hw
  case construct arg => exact decode_commandWord_construct arg
  case absorb b => exact decode_commandWord_absorb b
  case finalize => exact decode_commandWord_finalize
  case illegal v => exact decode_of_illegal v hwf

/-- Settles O2: which rows have no word is the encoder's own list of them. -/
theorem decodeOfEncodeIsTheInstruction : Obligations.DecodeOfEncodeIsTheInstruction := by
  intro i hwf
  exact ⟨fun w hw => decode_of_encode hwf hw, by cases i <;> simp [encode]⟩

/-- Settles O3: a command's word is put together again from the fields it decodes to; any other word is its own ILLEGAL row. -/
theorem encodeOfDecodeIsTheWord : Obligations.EncodeOfDecodeIsTheWord := by
  intro w
  obtain ⟨arg, rfl⟩ | ⟨b, rfl⟩ | rfl | hillegal := commandWord_or_illegal w
  · rw [decode_commandWord_construct]; exact ⟨rfl, rfl⟩
  · rw [decode_commandWord_absorb]; exact ⟨rfl, rfl⟩
  · rw [decode_commandWord_finalize]; exact ⟨rfl, rfl⟩
  · rw [decode_of_illegal w hillegal]; exact ⟨hillegal, rfl⟩

/-! ## `op` and `arg` as numbers -/

theorem opField_eq_iff (w : CmdWord) (op : Byte) : opField w = op ↔ w.toNat / 256 = op.toNat := by
  rw [← opField_toNat, BitVec.toNat_inj]

theorem argField_eq_ofNat (w : CmdWord) : argField w = BitVec.ofNat 8 (w.toNat % 256) := by
  rw [← argField_toNat, BitVec.ofNat_toNat, BitVec.setWidth_eq]

/-- The word 768 is the word with opcode 3 and operand 0. -/
theorem finalizeFields_iff (w : CmdWord) : opField w = 0x03 ∧ argField w = 0x00 ↔ w.toNat = 768 := by
  rw [opField_eq_iff, ← BitVec.toNat_inj, argField_toNat, show (0x03 : Byte).toNat = 3 from rfl,
    show (0x00 : Byte).toNat = 0 from rfl]
  omega

/-- Settles O4: the decoder's conditions on the two fields are these conditions on the quotient and the remainder. -/
theorem decoderReadsOpAndArg : Obligations.DecoderReadsOpAndArg := by
  intro w
  refine ⟨fun h => ?_, fun h => ?_, fun h => ?_, fun h1 h2 h3 => ?_⟩
  · rw [decode_of_op1 w ((opField_eq_iff w 1).2 h), argField_eq_ofNat]
  · rw [decode_of_op2 w ((opField_eq_iff w 2).2 h), argField_eq_ofNat]
  · obtain ⟨hop, harg⟩ := (finalizeFields_iff w).2 h
    exact decode_of_finalize w hop harg
  · refine decode_of_illegal w ((isIllegalWord_iff w).2 ⟨?_, ?_, ?_⟩)
    · exact fun h => h1 ((opField_eq_iff w 1).1 h)
    · exact fun h => h2 ((opField_eq_iff w 2).1 h)
    · exact fun h => h3 ((finalizeFields_iff w).1 h)

/-- Settles O1: ten closed words, of every kind of word that R71, R72 and R75 tell apart. -/
theorem specWordsDecode : Obligations.SpecWordsDecode := by
  unfold Obligations.SpecWordsDecode
  decide

end Sys2Proof
end

section
/-! PROOF. The host actions other than commands (30_encoding.md R70; 70_reset_and_hazards.md R202), and CONSTRUCT's parameter word
(30_encoding.md R74). -/

namespace Sys2Proof.Machine

/-- Settles O6: the oldest pending action is the one taken, and neither a read nor a reset looks at the others. -/
theorem stepServesReadsResetAndIdle : Obligations.StepServesReadsResetAndIdle := by
  refine ⟨fun s n rest h => ?_, fun s rest h => ?_, step_idle⟩
  · rw [step_pending s _ rest h, takeAction_regRead]
  · rw [step_pending s _ rest h]; rfl

/-- The operand is zero-extended, so above its eight bits the parameter word is R74's constant. -/
theorem parameterWord_extractLsb'_above (arg : Byte) {k n : Nat} (h : 8 ≤ k) :
    (parameterWord arg).extractLsb' k n = (0x0000000001010000 : Word).extractLsb' k n := by
  have hoperand : (arg.setWidth 64).extractLsb' k n = 0#n := by
    ext i hi
    simp [BitVec.getLsbD_of_ge arg (k + i) (by omega)]
  rw [parameterWord, BitVec.extractLsb'_or, hoperand, BitVec.or_zero]

theorem parameterWord_extractLsb'_operand (arg : Byte) : (parameterWord arg).extractLsb' 0 8 = arg := by
  have hconstant : (0x0000000001010000 : Word).extractLsb' 0 8 = 0#8 := by decide
  have hoperand : (arg.setWidth 64).extractLsb' 0 8 = arg := by
    ext i hi
    simp [BitVec.getLsbD_eq_getElem hi]
    omega
  rw [parameterWord, BitVec.extractLsb'_or, hconstant, hoperand, BitVec.zero_or]

/-- Settles O9: the first word of the chain alone takes the parameter word. -/
theorem parameterWordHasTheTableFields : Obligations.ParameterWordHasTheTableFields := by
  intro arg s hlow hhigh
  have hexec := execConstruct_of_legal arg s ((outputSizeLegal_iff arg).2 ⟨hlow, hhigh⟩)
  refine ⟨_, parameterWord arg, hexec, ?_, fun i hi => ?_, parameterWord_extractLsb'_operand arg,
    parameterWord_extractLsb'_above arg (by decide), parameterWord_extractLsb'_above arg (by decide),
    parameterWord_extractLsb'_above arg (by decide), parameterWord_extractLsb'_above arg (by decide)⟩
  · simp [constructed, constructedChain]
  · have hne : 0 ≠ i.val := fun h => hi (Fin.ext h.symm)
    simp [constructed, constructedChain, hne]

end Sys2Proof.Machine
end

section
/-! PROOF. HASH's parts (30_encoding.md R81; 44_hash_oneshot.md R160): UPDATE's span, READDIGEST's reads, and the sequence that follows
the CONSTRUCT. -/

namespace Sys2Proof.Machine

/-- Two continuations that agree on what the first part can leave. -/
theorem andThen_congr {o : Host.Outcome State Fault Refusal} {f g : State → Host.Outcome State Fault Refusal}
    (h : ∀ t, o = .next t → f t = g t) : andThen o f = andThen o g := by
  cases o with
  | next t => exact h t rfl
  | fault r => rfl
  | refused r => rfl

theorem exec_construct (arg : Byte) (s : State) : exec (.construct arg) s = execConstruct arg s := rfl

theorem exec_update (span : List Byte) (s : State) : exec (.update span) s = execUpdate span s := rfl

theorem exec_readDigest (s : State) : exec .readDigest s = execReadDigest s := rfl

theorem exec_hash (n : Byte) (input : List Byte) (s : State) : exec (.hash n input) s = execHash n input s := rfl

theorem execUpdate_cons (b : Byte) (rest : List Byte) (s : State) :
    execUpdate (b :: rest) s = andThen (execAbsorb b s) (execUpdate rest) := rfl

/-! ## READDIGEST -/

/-- The state with more answers recorded, the newest of them first. -/
def State.answered (answers : List PortOutput) (s : State) : State := { s with outputs := answers ++ s.outputs }

@[simp] theorem State.answered_engine (answers : List PortOutput) (s : State) : (s.answered answers).engine = s.engine := rfl

theorem State.answered_answered (newer older : List PortOutput) (s : State) :
    (s.answered older).answered newer = s.answered (newer ++ older) := by
  simp [State.answered]

/-- What READDIGEST answers on an engine, the newest answer first. -/
def Engine.windowAnswers (e : Engine) : List PortOutput :=
  ((List.range e.outputSize.toNat).map fun j => PortOutput.value (e.regRead (BitVec.ofNat 8 (0x40 + j)))).reverse

theorem execReadDigest_eq (s : State) : execReadDigest s = .next (s.answered s.engine.windowAnswers) := by
  rw [execReadDigest, State.readWindow_eq, State.answered, Engine.windowAnswers]

/-- Settles O23: the reads of the window, folded into one record of answers. -/
theorem readDigestReadsTheWindow : Obligations.ReadDigestReadsTheWindow := execReadDigest_eq

/-! ## UPDATE, FINALIZE, READDIGEST -/

/-- What HASH does after its CONSTRUCT. -/
def execMessage (input : List Byte) (s : State) : Host.Outcome State Fault Refusal :=
  andThen (execUpdate input s) fun t => andThen (execFinalize t) execReadDigest

theorem execHash_of_legal {n : Byte} (h : outputSizeLegal n = true) (input : List Byte) (s : State) :
    execHash n input s = andThen (execConstruct n s) (execMessage input) := by
  rw [execHash, execConstruct_of_legal n s h, andThen_next, andThen_next, if_pos (State.accept_lastResponse _ _), execMessage]

theorem execHash_of_illegal {n : Byte} (h : outputSizeLegal n = false) (input : List Byte) (s : State) :
    execHash n input s = execConstruct n s := by
  have hrejected : ¬(s.reject .badOutputSize).lastResponse = some .ok := by simp
  rw [execHash, execConstruct_of_illegal n s h, andThen_next, if_neg hrejected]

/-- No byte of a span changes the output size. -/
theorem execUpdate_outputSize {span : List Byte} {s t : State} (h : execUpdate span s = .next t) :
    t.engine.outputSize = s.engine.outputSize := by
  induction span generalizing s with
  | nil => cases h; rfl
  | cons b rest ih =>
    obtain ⟨s₁, hb, hrest⟩ := andThen_eq_next.1 h
    obtain ⟨-, -, hsize, -⟩ := absorbLeavesTheRestUnchanged b s s₁ hb
    rw [ih hrest, hsize]

theorem execFinalize_outputSize {s t : State} (h : execFinalize s = .next t) : t.engine.outputSize = s.engine.outputSize := by
  obtain ⟨-, -, -, hsize, -⟩ := finalizeLeavesTheRestUnchanged s t h
  exact hsize

end Sys2Proof.Machine
end

section
/-! PROOF. What an UPDATE does depends on the number of its bytes alone (30_encoding.md R82; 70_reset_and_hazards.md R217). -/

namespace Sys2Proof.Machine

/-- The engine with another chain and other buffer contents: the two registers that hold data. -/
def Engine.withData (e : Engine) (c : Vector Word 8) (m : Buffer) : Engine := { e with chain := c, buffer := m }

def State.withData (s : State) (c : Vector Word 8) (m : Buffer) : State := { s with engine := s.engine.withData c m }

/-- States that differ in the engine's data at most. -/
def State.SameControl (s t : State) : Prop := ∃ c m, t = s.withData c m

theorem State.SameControl.refl (s : State) : s.SameControl s := ⟨s.engine.chain, s.engine.buffer, rfl⟩

theorem State.SameControl.reject {s t : State} (h : s.SameControl t) (code : Code) :
    (s.reject code).SameControl (t.reject code) := by
  obtain ⟨c, m, rfl⟩ := h
  exact ⟨c, m, by simp only [State.reject, Engine.latchErr_eq]; rfl⟩

/-- Where the byte goes, and whether a flush comes first, is read from `bufferLength`. -/
theorem Engine.absorbed_withData (e : Engine) (c : Vector Word 8) (m : Buffer) (b b' : Byte) :
    ∃ c' m', (e.withData c m).absorbed b' = (e.absorbed b).withData c' m' := by
  refine ⟨((e.withData c m).absorbed b').chain, ((e.withData c m).absorbed b').buffer, ?_⟩
  by_cases hl : e.bufferLength = 128
  · have hl' : (e.withData c m).bufferLength = 128 := hl
    rw [Engine.absorbed, Engine.absorbed, e.flush_of_eq hl, (e.withData c m).flush_of_eq hl']
    rfl
  · have hl' : (e.withData c m).bufferLength ≠ 128 := hl
    rw [e.absorbed_of_ne b hl, (e.withData c m).absorbed_of_ne b' hl']
    rfl

/-- The check of the phase comes out alike, and so does the store. -/
theorem State.SameControl.execAbsorb {s s' t t' : State} {b b' : Byte} (h : s.SameControl s')
    (ht : execAbsorb b s = .next t) (ht' : execAbsorb b' s' = .next t') : t.SameControl t' := by
  obtain ⟨c, m, rfl⟩ := h
  have hreject (code : Code) : (s.reject code).SameControl ((s.withData c m).reject code) :=
    State.SameControl.reject ⟨c, m, rfl⟩ code
  obtain ⟨hp, rfl⟩ | ⟨hp, hl, rfl⟩ | ⟨hp, rfl⟩ := execAbsorb_cases ht
  · rw [execAbsorb_idle b' (s.withData c m) hp] at ht'
    cases ht'
    exact hreject .notConstructed
  · have hl' : (s.withData c m).engine.bufferLength.toNat ≤ 128 := hl
    rw [execAbsorb_active b' (s.withData c m) hp, if_pos hl'] at ht'
    cases ht'
    obtain ⟨c', m', hdata⟩ := s.engine.absorbed_withData c m b b'
    exact ⟨c', m', congrArg (State.accept · s) hdata⟩
  · rw [execAbsorb_done b' (s.withData c m) hp] at ht'
    cases ht'
    exact hreject .alreadyFinalized

theorem State.SameControl.execUpdate {xs ys : List Byte} (hlen : xs.length = ys.length) {s s' t u : State}
    (h : s.SameControl s') (ht : execUpdate xs s = .next t) (hu : execUpdate ys s' = .next u) : t.SameControl u := by
  induction xs generalizing ys s s' with
  | nil =>
    obtain rfl := List.length_eq_zero_iff.1 hlen.symm
    cases ht; cases hu
    exact h
  | cons x xs ih =>
    cases ys with
    | nil => simp at hlen
    | cons y ys =>
      obtain ⟨t₁, hx, hxs⟩ := andThen_eq_next.1 ht
      obtain ⟨u₁, hy, hys⟩ := andThen_eq_next.1 hu
      exact ih (Nat.succ.inj hlen) (h.execAbsorb hx hy) hxs hys

/-- Settles O22: byte for byte, two spans of one length take states that differ in the data alone to such states again. -/
theorem controlDoesNotDependOnData : Obligations.ControlDoesNotDependOnData := by
  intro xs ys s t u hlen ht hu
  obtain ⟨c, m, rfl⟩ := (State.SameControl.refl s).execUpdate hlen ht hu
  rfl

end Sys2Proof.Machine
end

section
/-! PROOF. A row is the run of its host actions (30_encoding.md R81): no action looks at what is still pending, so the run of a list of
actions is the actions taken one after the other. -/

namespace Sys2Proof.Machine

/-- The actions of a list taken one after the other. -/
def takeAll : List HostAction → State → Host.Outcome State Fault Refusal
  | [], s => .next s
  | a :: acts, s => andThen (takeAction a s) (takeAll acts)

theorem takeAll_cons (a : HostAction) (acts : List HostAction) (s : State) :
    takeAll (a :: acts) s = andThen (takeAction a s) (takeAll acts) := rfl

theorem takeAll_append (as bs : List HostAction) (s : State) :
    takeAll (as ++ bs) s = andThen (takeAll as s) (takeAll bs) := by
  induction as generalizing s with
  | nil => rfl
  | cons a as ih =>
    rw [List.cons_append, takeAll_cons, takeAll_cons, andThen_assoc]
    exact congrArg _ (funext ih)

/-! ## what is pending -/

/-- The state with another list of actions still to come. -/
def State.withPending (q : List HostAction) (s : State) : State := { s with pending := q }

@[simp] theorem State.withPending_engine (q : List HostAction) (s : State) : (s.withPending q).engine = s.engine := rfl

theorem execConstruct_withPending (arg : Byte) (q : List HostAction) (s : State) :
    execConstruct arg (s.withPending q) = andThen (execConstruct arg s) fun t => .next (t.withPending q) := by
  unfold execConstruct
  split <;> rfl

theorem execAbsorb_withPending (b : Byte) (q : List HostAction) (s : State) :
    execAbsorb b (s.withPending q) = andThen (execAbsorb b s) fun t => .next (t.withPending q) := by
  cases hp : s.engine.phase with
  | idle => rw [execAbsorb_idle b s hp, execAbsorb_idle b (s.withPending q) hp]; rfl
  | active =>
    rw [execAbsorb_active b s hp, execAbsorb_active b (s.withPending q) hp, State.withPending_engine]
    split <;> rfl
  | done => rw [execAbsorb_done b s hp, execAbsorb_done b (s.withPending q) hp]; rfl

theorem execFinalize_withPending (q : List HostAction) (s : State) :
    execFinalize (s.withPending q) = andThen (execFinalize s) fun t => .next (t.withPending q) := by
  cases hp : s.engine.phase with
  | idle => rw [execFinalize_idle s hp, execFinalize_idle (s.withPending q) hp]; rfl
  | active => rw [execFinalize_active s hp, execFinalize_active (s.withPending q) hp]; rfl
  | done => rw [execFinalize_done s hp, execFinalize_done (s.withPending q) hp]; rfl

theorem takeAction_withPending (a : HostAction) (q : List HostAction) (s : State) :
    takeAction a (s.withPending q) = andThen (takeAction a s) fun t => .next (t.withPending q) := by
  cases a with
  | cmd w =>
    simp only [takeAction]
    obtain ⟨arg, hd⟩ | ⟨b, hd⟩ | hd | hd := decode_cases w <;> rw [hd]
    · exact execConstruct_withPending arg q s
    · exact execAbsorb_withPending b q s
    · exact execFinalize_withPending q s
    · rfl
  | regRead n => rfl
  | reset => rfl

/-- As many steps as there are actions at the front of the list take those actions, and leave the rest pending. -/
theorem runSteps_eq_takeAll (acts rest : List HostAction) (s : State) :
    runSteps acts.length (s.withPending (acts ++ rest)) = takeAll acts (s.withPending rest) := by
  induction acts generalizing s with
  | nil => rfl
  | cons a acts ih =>
    calc runSteps (acts.length + 1) (s.withPending (a :: (acts ++ rest)))
        = andThen (takeAction a (s.withPending (acts ++ rest))) (runSteps acts.length) := rfl
      _ = andThen (takeAction a s) fun t => runSteps acts.length (t.withPending (acts ++ rest)) := by
        rw [takeAction_withPending, andThen_assoc]; rfl
      _ = andThen (takeAction a s) fun t => takeAll acts (t.withPending rest) := congrArg _ (funext ih)
      _ = takeAll (a :: acts) (s.withPending rest) := by
        rw [takeAll_cons, takeAction_withPending, andThen_assoc]; rfl

/-! ## the actions of each row -/

theorem takeAction_construct (arg : Byte) (s : State) :
    takeAction (.cmd (commandWord 0x01 arg)) s = execConstruct arg s := by
  rw [takeAction, decode_commandWord_construct, exec_construct]

theorem takeAction_absorb (b : Byte) (s : State) : takeAction (.cmd (commandWord 0x02 b)) s = execAbsorb b s := by
  rw [takeAction, decode_commandWord_absorb, exec_absorb]

theorem takeAction_finalize (s : State) : takeAction (.cmd (commandWord 0x03 0x00)) s = execFinalize s := by
  rw [takeAction, decode_commandWord_finalize, exec_finalize]

theorem takeAll_updateActions (span : List Byte) (s : State) : takeAll (updateActions span) s = execUpdate span s := by
  induction span generalizing s with
  | nil => rfl
  | cons b rest ih =>
    calc takeAll (updateActions (b :: rest)) s
        = andThen (takeAction (.cmd (commandWord 0x02 b)) s) (takeAll (updateActions rest)) := rfl
      _ = andThen (execAbsorb b s) (execUpdate rest) := by rw [takeAction_absorb, funext ih]

theorem takeAll_readDigestActions (n : Nat) (s : State) : takeAll (readDigestActions n) s = .next (s.readWindow n) := by
  induction n with
  | zero => rfl
  | succ n ih =>
    have hlast : readDigestActions (n + 1) = readDigestActions n ++ [.regRead (BitVec.ofNat 8 (0x40 + n))] := by
      simp [readDigestActions, List.range_succ]
    rw [hlast, takeAll_append, ih]
    rfl

/-- What the host issues after HASH's CONSTRUCT. The size is read before the span is absorbed, and the span leaves it. -/
theorem takeAll_messageActions (input : List Byte) (s : State) :
    takeAll (updateActions input ++ .cmd (commandWord 0x03 0x00) :: readDigestActions s.engine.outputSize.toNat) s =
      execMessage input s := by
  rw [takeAll_append, takeAll_updateActions, execMessage]
  refine andThen_congr fun t ht => ?_
  rw [takeAll_cons, takeAction_finalize]
  refine andThen_congr fun u hu => ?_
  rw [takeAll_readDigestActions, execReadDigest, execFinalize_outputSize hu, execUpdate_outputSize ht]

/-- R81's whole expansion of HASH: the reads are counted by the size that the CONSTRUCT leaves, the new one or the old. -/
theorem takeAll_hashExpansionActions (n : Byte) (input : List Byte) (s : State) :
    takeAll (hashExpansionActions s.engine.outputSize n input) s = andThen (execConstruct n s) (execMessage input) := by
  rw [hashExpansionActions, takeAll_cons, takeAction_construct]
  refine andThen_congr fun t ht => ?_
  have hsize : (if outputSizeLegal n then n.toNat else s.engine.outputSize.toNat) = t.engine.outputSize.toNat := by
    cases hl : outputSizeLegal n with
    | true =>
      rw [execConstruct_of_legal n s hl] at ht
      cases ht
      rw [outputSizeLegal_iff] at hl
      simp [constructed]
      omega
    | false =>
      rw [execConstruct_of_illegal n s hl] at ht
      cases ht
      simp
  rw [hsize, takeAll_messageActions]

/-- With a legal size R160's procedure issues the whole expansion, else the CONSTRUCT alone. -/
theorem takeAll_hashActions (n : Byte) (input : List Byte) (s : State) : takeAll (hashActions n input) s = execHash n input s := by
  cases hl : outputSizeLegal n with
  | true =>
    have hacts : hashActions n input = hashExpansionActions s.engine.outputSize n input := by
      simp [hashActions, hashExpansionActions, hl]
    rw [hacts, takeAll_hashExpansionActions, execHash_of_legal hl]
  | false =>
    have hacts : hashActions n input = [.cmd (commandWord 0x01 n)] := by simp [hashActions, hl]
    rw [hacts, takeAll_cons, takeAction_construct, execHash_of_illegal hl, execConstruct_of_illegal n s hl]
    rfl

theorem takeAll_hostActions {i : Instr} {acts : List HostAction} {s : State} (hwf : i.wf = true)
    (hacts : hostActions s.engine.outputSize i = some acts) : takeAll acts s = exec i s := by
  have hone (w : CmdWord) (hw : decode w = i) : takeAll [.cmd w] s = exec i s := by
    rw [takeAll_cons, takeAction, hw]
    cases exec i s <;> rfl
  cases i <;> simp only [hostActions, Option.some.injEq, reduceCtorEq] at hacts <;> subst hacts
  case construct arg => exact hone _ (decode_commandWord_construct arg)
  case absorb b => exact hone _ (decode_commandWord_absorb b)
  case finalize => exact hone _ decode_commandWord_finalize
  case illegal w => exact hone w (decode_of_illegal w hwf)
  case update span => exact takeAll_updateActions span s
  case hash n input => exact takeAll_hashActions n input s
  case readDigest => exact takeAll_readDigestActions _ s

/-- Settles O27: the run takes the row's actions, and each row's actions are the row. -/
theorem rowsRunAsTheirHostActions : Obligations.RowsRunAsTheirHostActions := by
  intro i acts rest s hwf hacts
  calc runSteps acts.length (s.withPending (acts ++ rest))
      = takeAll acts (s.withPending rest) := runSteps_eq_takeAll acts rest s
    _ = exec i (s.withPending rest) := takeAll_hostActions hwf hacts

/-! ## the expansions as rows -/

theorem execAll_expansion_update (span : List Byte) (s : State) :
    execAll (expansion (.update span)) s = execUpdate span s := by
  induction span generalizing s with
  | nil => rfl
  | cons b rest ih =>
    calc execAll (expansion (.update (b :: rest))) s
        = andThen (execAbsorb b s) (execAll (expansion (.update rest))) := rfl
      _ = andThen (execAbsorb b s) (execUpdate rest) := by rw [funext ih]

/-- FINALIZE and READDIGEST end the list: after the reads there is nothing left to do. -/
theorem execAll_expansion_hash (n : Byte) (input : List Byte) (s : State) :
    execAll (expansion (.hash n input)) s = andThen (execConstruct n s) (execMessage input) := by
  refine andThen_congr fun t _ => ?_
  calc execAll (input.map .absorb ++ [.finalize, .readDigest]) t
      = andThen (execUpdate input t) (execAll [.finalize, .readDigest]) := by
        rw [execAll_append]; exact congrArg (andThen · _) (execAll_expansion_update input t)
    _ = execMessage input t := rfl

/-- Settles O53: the rows of HASH's expansion and the actions of HASH's expansion are the same CONSTRUCT and message. -/
theorem expansionsRunTheirRows : Obligations.ExpansionsRunTheirRows := by
  refine ⟨execAll_expansion_update, fun n input s hlow hhigh => ?_, fun n input rest s => ?_⟩
  · rw [execAll_expansion_hash, exec_hash, execHash_of_legal ((outputSizeLegal_iff n).2 ⟨hlow, hhigh⟩)]
  · rw [execAll_expansion_hash]
    exact (runSteps_eq_takeAll _ rest s).trans (takeAll_hashExpansionActions n input (s.withPending rest))

end Sys2Proof.Machine
end

section
/-! PROOF. HASH's expansion after a rejected CONSTRUCT (30_encoding.md R81; 60_exceptions.md R172, R177, R178): outside ACTIVE the rest
of it is rejected too; in ACTIVE it runs, and `err` is a register that none of it reads. -/

namespace Sys2Proof.Machine

/-! ## `err` in the engine -/

/-- The engine with another value in `err`. -/
def Engine.withErr (e : Engine) (code : Code) : Engine := { e with err := code }

/-- The read port shows `err` in STATUS alone. -/
theorem Engine.regRead_withErr (e : Engine) (code : Code) {n : Byte} (h : n ≠ 0x00) : (e.withErr code).regRead n = e.regRead n := by
  rw [Engine.regRead, Engine.regRead, if_neg h, if_neg h]
  rfl

theorem Engine.windowAnswers_withErr (e : Engine) (code : Code) : (e.withErr code).windowAnswers = e.windowAnswers := by
  have hread : ∀ j ∈ List.range e.outputSize.toNat,
      PortOutput.value ((e.withErr code).regRead (BitVec.ofNat 8 (0x40 + j))) = .value (e.regRead (BitVec.ofNat 8 (0x40 + j))) := by
    intro j hj
    have hsize := e.outputSize.isLt
    rw [List.mem_range] at hj
    have hstatus : BitVec.ofNat 8 (0x40 + j) ≠ 0x00 := by
      rw [ne_eq, ← BitVec.toNat_inj, BitVec.toNat_ofNat, show (0x00 : Byte).toNat = 0 from rfl]
      omega
    rw [e.regRead_withErr code hstatus]
  exact congrArg List.reverse (List.map_congr_left hread)

theorem Engine.absorbed_withErr (e : Engine) (code : Code) (b : Byte) : (e.withErr code).absorbed b = (e.absorbed b).withErr code := by
  by_cases hl : e.bufferLength = 128
  · have hl' : (e.withErr code).bufferLength = 128 := hl
    rw [Engine.absorbed, Engine.absorbed, e.flush_of_eq hl, (e.withErr code).flush_of_eq hl']
    rfl
  · have hl' : (e.withErr code).bufferLength ≠ 128 := hl
    rw [e.absorbed_of_ne b hl, (e.withErr code).absorbed_of_ne b hl']
    rfl

theorem Engine.finalize_withErr (e : Engine) (code : Code) : (e.withErr code).finalize = e.finalize.withErr code := rfl

/-- Once a first cause is latched, a rejection is its response alone (R177). -/
theorem State.reject_of_latched {s : State} (h : s.engine.err ≠ .ok) (code : Code) :
    s.reject code = s.answered [.response code] := by
  rw [State.reject, Engine.latchErr, if_neg h]
  rfl

/-! ## the message outside ACTIVE -/

theorem execAbsorb_rejected {s : State} {code : Code} (h : phaseCheck s.engine.phase = some code) (b : Byte) :
    execAbsorb b s = .next (s.reject code) := by
  simp [execAbsorb, h]

theorem execFinalize_rejected {s : State} {code : Code} (h : phaseCheck s.engine.phase = some code) :
    execFinalize s = .next (s.reject code) := by
  simp [execFinalize, h]

theorem execUpdate_rejected {s : State} {code : Code} (h : phaseCheck s.engine.phase = some code) (herr : s.engine.err ≠ .ok)
    (span : List Byte) :
    execUpdate span s = .next (s.answered (List.replicate span.length (.response code))) := by
  induction span generalizing s with
  | nil => rfl
  | cons b rest ih =>
    rw [execUpdate_cons, execAbsorb_rejected h, State.reject_of_latched herr, andThen_next, ih (by rwa [State.answered_engine])
      (by rwa [State.answered_engine]), State.answered_answered, List.length_cons, List.replicate_succ']

/-- Each byte and the FINALIZE are rejected for the phase; the reads are served in every phase. -/
theorem execMessage_rejected {s : State} {code : Code} (h : phaseCheck s.engine.phase = some code) (herr : s.engine.err ≠ .ok)
    (input : List Byte) :
    execMessage input s =
      .next (s.answered (s.engine.windowAnswers ++ List.replicate (input.length + 1) (.response code))) := by
  rw [execMessage, execUpdate_rejected h herr, andThen_next, execFinalize_rejected (by rwa [State.answered_engine]), andThen_next,
    State.reject_of_latched (by rwa [State.answered_engine]), execReadDigest_eq, State.answered_answered, State.answered_answered,
    List.replicate_succ]
  simp

/-! ## the message in ACTIVE -/

/-- The engine after a span of accepted ABSORBs. -/
def Engine.absorbedAll (span : List Byte) (e : Engine) : Engine := span.foldl (fun e b => e.absorbed b) e

theorem Engine.absorbedAll_cons (b : Byte) (rest : List Byte) (e : Engine) :
    e.absorbedAll (b :: rest) = (e.absorbed b).absorbedAll rest := rfl

theorem Engine.absorbedAll_withErr (span : List Byte) (e : Engine) (code : Code) :
    (e.withErr code).absorbedAll span = (e.absorbedAll span).withErr code := by
  induction span generalizing e with
  | nil => rfl
  | cons b rest ih => rw [Engine.absorbedAll_cons, Engine.absorbed_withErr, ih, Engine.absorbedAll_cons]

@[simp] theorem Engine.absorbedAll_phase (span : List Byte) (e : Engine) : (e.absorbedAll span).phase = e.phase := by
  induction span generalizing e with
  | nil => rfl
  | cons b rest ih => rw [Engine.absorbedAll_cons, ih, Engine.absorbed_phase]

theorem execUpdate_active {s : State} (hp : s.engine.phase = .active) (hl : s.engine.bufferLength.toNat ≤ 128) (span : List Byte) :
    execUpdate span s = .next { s with
      engine := s.engine.absorbedAll span
      outputs := List.replicate span.length (.response .ok) ++ s.outputs } := by
  induction span generalizing s with
  | nil => rfl
  | cons b rest ih =>
    have hp' : (s.engine.absorbed b).phase = .active := by rw [Engine.absorbed_phase, hp]
    have hl' : (s.engine.absorbed b).bufferLength.toNat ≤ 128 := by
      have hroom := s.engine.flush_bufferLength_lt hl
      rw [s.engine.absorbed_bufferLength_toNat b hl]
      omega
    rw [execUpdate_cons, execAbsorb_active b s hp, if_pos hl, andThen_next, ih (s := s.accept (s.engine.absorbed b)) hp' hl']
    simp [State.accept, State.respond, Engine.absorbedAll_cons, List.replicate_succ']

/-- The engine after a message taken in ACTIVE. -/
def Engine.afterMessage (input : List Byte) (e : Engine) : Engine := (e.absorbedAll input).finalize

theorem Engine.afterMessage_withErr (input : List Byte) (e : Engine) (code : Code) :
    (e.withErr code).afterMessage input = (e.afterMessage input).withErr code := by
  rw [Engine.afterMessage, Engine.absorbedAll_withErr, Engine.finalize_withErr, Engine.afterMessage]

/-- What the ports answer to a message taken in ACTIVE, the newest answer first. -/
def Engine.messageAnswers (input : List Byte) (e : Engine) : List PortOutput :=
  (e.afterMessage input).windowAnswers ++ List.replicate (input.length + 1) (.response .ok)

theorem Engine.messageAnswers_withErr (input : List Byte) (e : Engine) (code : Code) :
    (e.withErr code).messageAnswers input = e.messageAnswers input := by
  rw [Engine.messageAnswers, Engine.afterMessage_withErr, Engine.windowAnswers_withErr, Engine.messageAnswers]

theorem execMessage_active {s : State} (hp : s.engine.phase = .active) (hl : s.engine.bufferLength.toNat ≤ 128) (input : List Byte) :
    execMessage input s = .next { s with
      engine := s.engine.afterMessage input
      outputs := s.engine.messageAnswers input ++ s.outputs } := by
  have hp' : (s.engine.absorbedAll input).phase = .active := by rw [Engine.absorbedAll_phase, hp]
  rw [execMessage, execUpdate_active hp hl, andThen_next, execFinalize_active _ hp', andThen_next, execReadDigest_eq]
  simp [State.accept, State.respond, State.answered, Engine.messageAnswers, Engine.afterMessage, List.replicate_succ]

theorem execMessage_eq (input : List Byte) (s : State) :
    execMessage input s = andThen (andThen (exec (.update input) s) (exec .finalize)) (exec .readDigest) := by
  rw [andThen_assoc]; rfl

/-! ## the expansion -/

/-- The state that a rejected CONSTRUCT leaves to the rest of HASH's expansion. -/
theorem execAll_expansion_hash_of_illegal {n : Byte} (h : outputSizeLegal n = false) (input : List Byte) (s : State) :
    execAll (expansion (.hash n input)) s = execMessage input (s.reject .badOutputSize) := by
  rw [execAll_expansion_hash, execConstruct_of_illegal n s h, andThen_next]

/-- After a rejection something is latched, so the later rejections leave `err`; what the window shows is as before. -/
theorem execAll_expansion_hash_of_rejected {n : Byte} (h : outputSizeLegal n = false) (input : List Byte) {s : State} {code : Code}
    (hcheck : phaseCheck s.engine.phase = some code) :
    execAll (expansion (.hash n input)) s = .next { s with
      engine := s.engine.latchErr .badOutputSize
      outputs := s.engine.windowAnswers ++ List.replicate (input.length + 1) (.response code) ++
        .response .badOutputSize :: s.outputs } := by
  have hphase : phaseCheck (s.reject .badOutputSize).engine.phase = some code := by
    rw [State.reject_engine, Engine.latchErr_phase, hcheck]
  have hlatched : (s.reject .badOutputSize).engine.err ≠ .ok := by
    rw [State.reject_engine, Engine.latchErr_err]
    split
    · decide
    · assumption
  have hwindow : (s.engine.latchErr .badOutputSize).windowAnswers = s.engine.windowAnswers := by
    rw [Engine.latchErr_eq]
    exact s.engine.windowAnswers_withErr _
  rw [execAll_expansion_hash_of_illegal h, execMessage_rejected hphase hlatched, State.reject_engine, hwindow]
  rfl

/-- Settles O54: in ACTIVE the expansion is the message on an engine that differs in `err`, which goes through to the end unread. -/
theorem hashExpansionGoesOnAfterARejection : Obligations.HashExpansionGoesOnAfterARejection := by
  intro n input s hn e reads
  have hillegal : outputSizeLegal n = false := by rwa [Bool.eq_false_iff, ne_eq, outputSizeLegal_iff]
  have he : s.engine.latchErr .badOutputSize = s.engine.withErr e.err := Engine.latchErr_eq _ _
  refine ⟨fun hp => ?_, fun hp => ?_, fun hp hl => ?_⟩
  · rw [execAll_expansion_hash_of_rejected hillegal input (code := .notConstructed) (by rw [hp]; rfl), he]
    rfl
  · rw [execAll_expansion_hash_of_rejected hillegal input (code := .alreadyFinalized) (by rw [hp]; rfl), he]
    rfl
  · refine ⟨_, s.engine.messageAnswers input, (execMessage_eq input s).symm.trans (execMessage_active hp hl input), rfl, rfl, ?_⟩
    have hp' : (s.reject .badOutputSize).engine.phase = .active := by simp [hp]
    have hl' : (s.reject .badOutputSize).engine.bufferLength.toNat ≤ 128 := by simpa using hl
    rw [execAll_expansion_hash_of_illegal hillegal, execMessage_active hp' hl', State.reject_engine, he,
      Engine.afterMessage_withErr, Engine.messageAnswers_withErr]
    rfl

end Sys2Proof.Machine
end

section
/-! PROOF. CONSTRUCT (40_construct.md R100, R101): its word, and the engine an accepted one leaves. -/

namespace Sys2Proof

/-- The two fields lie side by side, so concatenation is the OR of the shifted opcode and the operand. -/
theorem commandWord_eq_or (op arg : Byte) : commandWord op arg = op.setWidth 16 <<< 8 ||| arg.setWidth 16 := by
  rw [commandWord, BitVec.append_def, BitVec.shiftLeftZeroExtend_eq, BitVec.setWidth'_eq]

end Sys2Proof

namespace Sys2Proof.Machine

theorem exec_construct_of_legal {arg : Byte} (s : State) (h : outputSizeLegal arg = true) :
    exec (.construct arg) s = .next (s.accept (constructed arg)) := execConstruct_of_legal arg s h

theorem constructedChain_zero (arg : Byte) : (constructedChain arg)[0] = iv[0] ^^^ parameterWord arg := by
  simp [constructedChain]

theorem constructedChain_of_ne_zero (arg : Byte) {i : Fin 8} (h : i ≠ 0) : (constructedChain arg)[i] = iv[i] := by
  have hne : 0 ≠ i.val := fun hi => h (Fin.ext hi.symm)
  simp [constructedChain, hne]

/-- A legal size is at most 64, so the seven bits of `outputSize` hold it. -/
theorem constructed_outputSize_toNat {arg : Byte} (h : outputSizeLegal arg = true) :
    (constructed arg).outputSize.toNat = arg.toNat := by
  rw [outputSizeLegal_iff] at h
  simp [constructed]
  omega

/-- Settles O7: the operand's two ranges are the two branches of the operand check. -/
theorem constructInitializesEveryRegister : Obligations.ConstructInitializesEveryRegister := by
  intro arg s
  refine ⟨?encoding, fun hlegal => ?accepted, fun hillegal => ?rejected⟩
  case encoding =>
    have hword : 0x0100#16 ||| arg.setWidth 16 = commandWord 0x01 arg := (commandWord_eq_or 0x01 arg).symm
    rw [hword, decode_commandWord_construct]
  case accepted =>
    rw [← outputSizeLegal_iff] at hlegal
    exact ⟨constructed arg, exec_construct_of_legal s hlegal, constructedChain_zero arg,
      fun _ => constructedChain_of_ne_zero arg, rfl, rfl, rfl, rfl, fun _ => rfl, rfl,
      constructed_outputSize_toNat hlegal, rfl, rfl⟩
  case rejected =>
    rw [← outputSizeLegal_iff, Bool.not_eq_true] at hillegal
    rw [exec_construct, execConstruct_of_illegal arg s hillegal, State.reject, Engine.latchErr_eq]
    rfl

/-- Settles O8: both runs leave `constructed arg`, which no field of the old state enters. -/
theorem constructForgetsThePast : Obligations.ConstructForgetsThePast := by
  intro arg s s' h
  have haccepted (u : State) : exec (.construct arg) u = .next (u.accept (constructed arg)) := exec_construct_of_legal u h
  exact ⟨s.accept (constructed arg), s'.accept (constructed arg), haccepted s, haccepted s', rfl,
    haccepted (s'.accept (constructed arg))⟩

end Sys2Proof.Machine
end

section
/-! PROOF. ABSORB (41_update.md R110): its word, its two rejections, the plain store and the store after a flush. -/

namespace Sys2Proof.Machine

theorem exec_absorb_active (b : Byte) {s : State} (hp : s.engine.phase = .active) (hl : s.engine.bufferLength.toNat ≤ 128) :
    exec (.absorb b) s = .next (s.accept (s.engine.absorbed b)) := by
  rw [exec_absorb, execAbsorb_active b s hp, if_pos hl]

theorem Engine.bufferLength_ne_of_lt {e : Engine} (h : e.bufferLength.toNat < 128) : e.bufferLength ≠ 128 :=
  fun hl => by simp [hl] at h

/-- The one store of an ABSORB after a flush is at address 0. -/
theorem Engine.absorbed_of_full {e : Engine} (b : Byte) (h : e.bufferLength = 128) :
    e.absorbed b = { (e.advanceCounter 128).compress with buffer := e.buffer.put 0 b, bufferLength := 1 } := by
  rw [Engine.absorbed, e.flush_of_eq h]; rfl

/-- Settles O10: the cases are those of the phase, and in ACTIVE of the flush test. -/
theorem absorbStoresOneByte : Obligations.AbsorbStoresOneByte := by
  intro b s
  refine ⟨?encoding, fun hp => ?idle, fun hp => ?done, fun hp hwf hl => ?room, fun hp hwf hl => ?full⟩
  case encoding =>
    have hword : 0x0200#16 ||| b.setWidth 16 = commandWord 0x02 b := (commandWord_eq_or 0x02 b).symm
    rw [hword, decode_commandWord_absorb]
  case idle =>
    rw [exec_absorb, execAbsorb_idle b s hp, State.reject, Engine.latchErr_eq]
    rfl
  case done =>
    rw [exec_absorb, execAbsorb_done b s hp, State.reject, Engine.latchErr_eq]
    rfl
  case room =>
    refine ⟨s.engine.buffer.put s.engine.bufferLength.toNat b, ?_,
      Buffer.put_wf _ _ b hwf hl, fun a => Buffer.get_put _ _ a b hwf⟩
    rw [exec_absorb_active b hp hl.le, s.engine.absorbed_of_ne b (Engine.bufferLength_ne_of_lt hl)]
    rfl
  case full =>
    refine ⟨s.engine.buffer.put 0 b, (s.engine.advanceCounter 128).counter0, (s.engine.advanceCounter 128).counter1, ?_,
      s.engine.advanceCounter_t 128, Buffer.put_wf _ 0 b hwf (by omega), fun a => Buffer.get_put _ 0 a b hwf⟩
    rw [exec_absorb_active b hp (by rw [hl]; decide), Engine.absorbed_of_full b hl]
    rfl

end Sys2Proof.Machine
end

section
/-! PROOF. UPDATE as one fold over its bytes (41_update.md R111, R113) and its block-wise form (R112): an iteration of the loop flushes
where the first of its bytes would, and moves a run that reaches the next flush at most. -/

namespace Sys2Proof.Machine

theorem execUpdate_append (as bs : List Byte) (s : State) :
    execUpdate (as ++ bs) s = andThen (execUpdate as s) (execUpdate bs) := by
  induction as generalizing s with
  | nil => rfl
  | cons a as ih =>
    rw [List.cons_append, execUpdate_cons, execUpdate_cons, andThen_assoc]
    exact congrArg _ (funext ih)

/-- Settles O19, by `execUpdate_append`; the empty span runs no command. -/
theorem updateIsChunkingInvariant : Obligations.UpdateIsChunkingInvariant :=
  fun a b s => ⟨execUpdate_append a b s, rfl⟩

/-- The engine after a run of bytes stored from the append address up, with no flush. -/
def Engine.withRun (e : Engine) (run : List Byte) : Engine :=
  { e with
    buffer := e.buffer.putBytes e.bufferLength.toNat run
    bufferLength := e.bufferLength + BitVec.ofNat 8 run.length }

theorem Engine.withRun_bufferLength_toNat {e : Engine} {run : List Byte} (h : e.bufferLength.toNat + run.length ≤ 128) :
    (e.withRun run).bufferLength.toNat = e.bufferLength.toNat + run.length := by
  simp only [Engine.withRun, BitVec.toNat_add, BitVec.toNat_ofNat]
  omega

theorem Engine.withRun_cons {e : Engine} (b : Byte) (rest : List Byte) (h : e.bufferLength.toNat < 128) :
    e.withRun (b :: rest) = (e.absorbed b).withRun rest := by
  have haddr : (e.bufferLength + 1).toNat = e.bufferLength.toNat + 1 := by
    rw [BitVec.toNat_add, show (1 : BitVec 8).toNat = 1 from rfl]
    omega
  have hlen : e.bufferLength + BitVec.ofNat 8 (rest.length + 1) = e.bufferLength + 1 + BitVec.ofNat 8 rest.length := by
    rw [Nat.add_comm, BitVec.ofNat_add, ← BitVec.add_assoc]
    rfl
  rw [e.absorbed_of_ne b (Engine.bufferLength_ne_of_lt h)]
  simp only [Engine.withRun, Buffer.putBytes, List.length_cons, haddr, hlen]

/-- Bytes that fit into the buffer cause no flush. -/
theorem Engine.absorbedAll_of_fits {e : Engine} {run : List Byte} (h : e.bufferLength.toNat + run.length ≤ 128) :
    e.absorbedAll run = e.withRun run := by
  induction run generalizing e with
  | nil => simp [Engine.absorbedAll, Engine.withRun, Buffer.putBytes]
  | cons b rest ih =>
    rw [List.length_cons] at h
    have hlt : e.bufferLength.toNat < 128 := by omega
    have hrest : (e.absorbed b).bufferLength.toNat + rest.length ≤ 128 := by
      rw [e.absorbed_bufferLength_toNat b hlt.le, e.flush_of_ne (Engine.bufferLength_ne_of_lt hlt)]
      omega
    rw [Engine.absorbedAll_cons, ih hrest, Engine.withRun_cons b rest hlt]

theorem Engine.absorbedAll_append (as bs : List Byte) (e : Engine) :
    e.absorbedAll (as ++ bs) = (e.absorbedAll as).absorbedAll bs := List.foldl_append

theorem Engine.absorbedAll_concat (as : List Byte) (b : Byte) (e : Engine) :
    e.absorbedAll (as ++ [b]) = (e.absorbedAll as).absorbed b := e.absorbedAll_append as [b]

/-- A flush makes room, so the flush test fails after it. -/
theorem Engine.absorbed_flush {e : Engine} (b : Byte) (h : e.bufferLength.toNat ≤ 128) : e.flush.absorbed b = e.absorbed b := by
  have hne : e.flush.bufferLength ≠ 128 := Engine.bufferLength_ne_of_lt (e.flush_bufferLength_lt h)
  rw [e.flush.absorbed_of_ne b hne, Engine.absorbed, Engine.flush_buffer]

/-- How many bytes go into the buffer before the next flush. -/
def Engine.room (e : Engine) : Nat := 128 - e.bufferLength.toNat

/-- One iteration of the loop: the flush, then a run as long as the room or the data. -/
theorem updateBlockwise_cons (fuel : Nat) (b : Byte) (rest : List Byte) (e : Engine) :
    updateBlockwise (fuel + 1) (b :: rest) e =
      updateBlockwise fuel ((b :: rest).drop e.flush.room)
        (e.flush.withRun ((b :: rest).take e.flush.room)) := by
  rw [updateBlockwise, Engine.room, Engine.withRun, List.length_take, ← List.take_eq_take_min, ← List.drop_eq_drop_min]

theorem updateBlockwise_eq_absorbedAll {fuel : Nat} {data : List Byte} (hfuel : data.length ≤ fuel) {e : Engine}
    (hl : e.bufferLength.toNat ≤ 128) : updateBlockwise fuel data e = e.absorbedAll data := by
  induction fuel generalizing data e with
  | zero =>
    obtain rfl := List.length_eq_zero_iff.1 (Nat.le_zero.1 hfuel)
    rfl
  | succ fuel ih =>
    cases data with
    | nil => rfl
    | cons b rest =>
      have hroom := e.flush_bufferLength_lt hl
      have hfits : e.flush.bufferLength.toNat + ((b :: rest).take e.flush.room).length ≤ 128 := by
        rw [List.length_take, Engine.room]
        omega
      have hshorter : ((b :: rest).drop e.flush.room).length ≤ fuel := by
        rw [List.length_drop, Engine.room]
        omega
      calc updateBlockwise (fuel + 1) (b :: rest) e
          = (e.flush.withRun ((b :: rest).take e.flush.room)).absorbedAll ((b :: rest).drop e.flush.room) := by
            rw [updateBlockwise_cons, ih hshorter (by rwa [Engine.withRun_bufferLength_toNat hfits])]
        _ = e.flush.absorbedAll (b :: rest) := by
            rw [← Engine.absorbedAll_of_fits hfits, ← Engine.absorbedAll_append, List.take_append_drop]
        _ = e.absorbedAll (b :: rest) := by
            rw [Engine.absorbedAll_cons, Engine.absorbed_flush b hl, Engine.absorbedAll_cons]

/-- Settles O20: both forms leave the engine that absorbs the bytes one after the other. -/
theorem updateEqualsTheBlockwiseForm : Obligations.UpdateEqualsTheBlockwiseForm := by
  intro data s hp hl
  rw [exec_update, execUpdate_active hp hl, updateBlockwise_eq_absorbedAll le_rfl hl]

end Sys2Proof.Machine
end

section
/-! PROOF. The closed form of the state after CONSTRUCT and a message (41_update.md R114): the engine after `q` flushes, written out in
terms of the message, and the ABSORB of one more byte on it. -/

namespace Sys2Proof.Machine

section MessageEngine

variable (n : Byte) (msg : List Byte)

/-! ## the counter words of a byte count -/

/-- The count determines its two words. -/
theorem Engine.counters_of_t {e : Engine} {k : Nat} (h : e.t = BitVec.ofNat 128 k) :
    e.counter0 = countLow k ∧ e.counter1 = countHigh k := by
  have hlow := e.counter0.isLt
  have hhigh := e.counter1.isLt
  have hsum : e.counter1.toNat * 2 ^ 64 + e.counter0.toNat = k % 2 ^ 128 := by
    rw [← Engine.t_toNat, h, BitVec.toNat_ofNat]
  constructor <;> apply BitVec.eq_of_toNat_eq
  · rw [countLow, BitVec.toNat_ofNat]
    omega
  · rw [countHigh, BitVec.toNat_ofNat]
    omega

theorem countHigh_append_countLow (k : Nat) : countHigh k ++ countLow k = BitVec.ofNat 128 k := by
  apply BitVec.eq_of_toNat_eq
  rw [BitVec.toNat_append, ← Nat.shiftLeft_add_eq_or_of_lt (countLow k).isLt, Nat.shiftLeft_eq, countHigh, countLow,
    BitVec.toNat_ofNat, BitVec.toNat_ofNat, BitVec.toNat_ofNat]
  omega

/-! ## the blocks of a message -/

theorem length_messageBlock (k : Nat) : (messageBlock msg k).length = min 128 (msg.length - 128 * k) := by
  rw [messageBlock, List.length_take, List.length_drop]

theorem getD_messageBlock (k : Nat) {j : Nat} (h : j < 128) : (messageBlock msg k).getD j 0 = msg.getD (128 * k + j) 0 := by
  simp [messageBlock, List.getD_eq_getElem?_getD, h]

/-- Later bytes do not enter a full block. -/
theorem messageBlock_append_of_full (more : List Byte) {k : Nat} (h : 128 * (k + 1) ≤ msg.length) :
    messageBlock (msg ++ more) k = messageBlock msg k := by
  rw [messageBlock, List.drop_append_of_le_length (by omega), List.take_append_of_le_length (by rw [List.length_drop]; omega),
    messageBlock]

/-- The next byte goes to the end of the last block. -/
theorem messageBlock_append_byte (b : Byte) {k : Nat} (h : 128 * k ≤ msg.length) (hroom : msg.length < 128 * (k + 1)) :
    messageBlock (msg ++ [b]) k = messageBlock msg k ++ [b] := by
  have hshort : (msg.drop (128 * k)).length < 128 := by rw [List.length_drop]; omega
  rw [messageBlock, messageBlock, List.drop_append_of_le_length h, List.take_of_length_le (by rwa [List.length_append]),
    List.take_of_length_le hshort.le]

theorem chainAfter_append (more : List Byte) {k : Nat} (h : 128 * k ≤ msg.length) :
    chainAfter n (msg ++ more) k = chainAfter n msg k := by
  induction k with
  | zero => rfl
  | succ k ih => rw [chainAfter, ih (by omega), messageBlock_append_of_full msg more h, chainAfter]

/-! ## the buffer -/

theorem Buffer.putBytes_append (as bs : List Byte) (m : Buffer) (addr : Nat) :
    m.putBytes addr (as ++ bs) = (m.putBytes addr as).putBytes (addr + as.length) bs := by
  induction as generalizing m addr with
  | nil => rfl
  | cons a as ih => rw [List.cons_append, Buffer.putBytes, Buffer.putBytes, ih, List.length_cons, Nat.add_right_comm, Nat.add_assoc]

theorem blockBuffer_wf {block : List Byte} (h : block.length ≤ 128) : (blockBuffer block).wf = true :=
  Buffer.putBytes_wf block [] 0 rfl (by omega)

theorem get_blockBuffer {block : List Byte} (h : block.length ≤ 128) (a : Nat) : (blockBuffer block).get a = block.getD a 0 := by
  rw [blockBuffer, Buffer.get_putBytes block [] 0 a rfl (by omega)]
  split
  · rfl
  · next hout => rw [Buffer.get_nil, List.getD_eq_default _ _ (by omega)]

/-- A full block leaves nothing of what the buffer held (R116). -/
theorem Buffer.putBytes_full {m : Buffer} {block : List Byte} (hm : m.wf = true) (h : block.length = 128) :
    m.putBytes 0 block = blockBuffer block := by
  refine Buffer.ext_get _ _ 0 (Buffer.putBytes_wf block m 0 hm (by omega)) (blockBuffer_wf h.le) fun a => ?_
  rw [get_blockBuffer h.le, Buffer.get_putBytes block m 0 a hm (by omega)]
  split
  · rfl
  · next hout => rw [Buffer.get_of_ge m 0 a hm (by omega), List.getD_eq_default _ _ (by omega)]

/-- What the `q`-th flush leaves in the buffer: the block it compressed, or the zeros of CONSTRUCT before the first one. -/
def flushedBuffer : Nat → Buffer
  | 0 => []
  | q + 1 => blockBuffer (messageBlock msg q)

theorem flushedBuffer_wf (q : Nat) : (flushedBuffer msg q).wf = true := by
  cases q with
  | zero => rfl
  | succ q => exact blockBuffer_wf (by rw [length_messageBlock]; omega)

theorem get_flushedBuffer (q : Nat) {j : Nat} (h : j < 128) :
    (flushedBuffer msg q).get j = if q = 0 then 0x00 else msg.getD (128 * (q - 1) + j) 0 := by
  cases q with
  | zero => rfl
  | succ q => exact (get_blockBuffer (by rw [length_messageBlock]; omega) j).trans (getD_messageBlock msg q h)

theorem flushedBuffer_append (more : List Byte) {q : Nat} (h : 128 * q ≤ msg.length) :
    flushedBuffer (msg ++ more) q = flushedBuffer msg q := by
  cases q with
  | zero => rfl
  | succ q => rw [flushedBuffer, messageBlock_append_of_full msg more h, flushedBuffer]

/-! ## the engine -/

/-- The engine after an accepted CONSTRUCT `n` and the message `msg`, `q` blocks of it flushed and the rest in the buffer. -/
def messageEngine (q : Nat) : Engine :=
  { constructed n with
    chain := chainAfter n msg q
    counter0 := countLow (128 * q)
    counter1 := countHigh (128 * q)
    buffer := (flushedBuffer msg q).putBytes 0 (messageBlock msg q)
    bufferLength := BitVec.ofNat 8 (msg.length - 128 * q) }

theorem messageEngine_bufferLength_toNat {q : Nat} (h : msg.length ≤ 128 * (q + 1)) :
    (messageEngine n msg q).bufferLength.toNat = msg.length - 128 * q := by
  rw [messageEngine, BitVec.toNat_ofNat]
  omega

theorem get_messageEngine_buffer {q j : Nat} (h : j < 128) : (messageEngine n msg q).buffer.get j =
    if j < msg.length - 128 * q then msg.getD (128 * q + j) 0
    else if q = 0 then 0x00 else msg.getD (128 * (q - 1) + j) 0 := by
  have hlen := length_messageBlock msg q
  rw [messageEngine, Buffer.get_putBytes _ _ 0 j (flushedBuffer_wf msg q) (by omega)]
  by_cases hj : j < msg.length - 128 * q
  · rw [if_pos (by omega), if_pos hj, Nat.sub_zero, getD_messageBlock msg q h]
  · rw [if_neg (by omega), if_neg hj, get_flushedBuffer msg q h]

/-- A byte for which there is room joins the last block. -/
theorem messageEngine_absorbed_of_room (b : Byte) {q : Nat} (h : 128 * q ≤ msg.length) (hroom : msg.length < 128 * (q + 1)) :
    (messageEngine n msg q).absorbed b = messageEngine n (msg ++ [b]) q := by
  have haddr := messageEngine_bufferLength_toNat n msg hroom.le
  have hblock : (messageBlock msg q).length = msg.length - 128 * q := by rw [length_messageBlock]; omega
  have hlen : BitVec.ofNat 8 (msg.length + 1 - 128 * q) = BitVec.ofNat 8 (msg.length - 128 * q) + 1 := by
    rw [show msg.length + 1 - 128 * q = msg.length - 128 * q + 1 by omega, BitVec.ofNat_add]
    rfl
  rw [Engine.absorbed_of_ne _ b (Engine.bufferLength_ne_of_lt (by omega)), haddr, messageEngine, messageEngine,
    chainAfter_append n msg [b] h, flushedBuffer_append msg [b] h, messageBlock_append_byte msg b h hroom, Buffer.putBytes_append,
    hblock, List.length_append, List.length_singleton, hlen, Nat.zero_add]
  rfl

/-- The flush compresses the block that fills the buffer, with the count of the blocks up to and including it. -/
theorem messageEngine_flush_of_full {q : Nat} (h : msg.length = 128 * (q + 1)) :
    (messageEngine n msg q).flush = messageEngine n msg (q + 1) := by
  have hfull : (messageEngine n msg q).bufferLength = 128 := by
    rw [messageEngine, h, show 128 * (q + 1) - 128 * q = 128 by omega]
    rfl
  have hblock : (messageBlock msg q).length = 128 := by rw [length_messageBlock]; omega
  have hnext : messageBlock msg (q + 1) = [] := by
    rw [← List.length_eq_zero_iff, length_messageBlock]
    omega
  have hbuffer : (messageEngine n msg q).buffer = blockBuffer (messageBlock msg q) :=
    Buffer.putBytes_full (flushedBuffer_wf msg q) hblock
  have ht : ((messageEngine n msg q).advanceCounter 128).t = BitVec.ofNat 128 (128 * (q + 1)) := by
    rw [Engine.advanceCounter_t, Engine.t, messageEngine, countHigh_append_countLow, Nat.mul_succ, BitVec.ofNat_add]
    rfl
  obtain ⟨hlow, hhigh⟩ := Engine.counters_of_t ht
  rw [Engine.flush_of_eq _ hfull, Engine.compress, hlow, hhigh, Engine.advanceCounter_buffer, hbuffer]
  conv_rhs => rw [messageEngine, hnext, h, Nat.sub_self]
  rfl

/-- R114 by induction on the number of bytes: the flush count rises with the first byte after a full block. -/
theorem absorbedAll_constructed : (constructed n).absorbedAll msg = messageEngine n msg (flushCount msg.length) := by
  induction msg using List.reverseRecOn with
  | nil => rfl
  | append_singleton msg b ih =>
    have hcount : flushCount (msg ++ [b]).length = msg.length / 128 := by simp [flushCount]
    rw [Engine.absorbedAll_concat, ih, hcount]
    by_cases hfull : msg.length = 128 * (flushCount msg.length + 1)
    · have hl := messageEngine_bufferLength_toNat n msg hfull.le
      have hnext : msg.length / 128 = flushCount msg.length + 1 := by omega
      rw [← Engine.absorbed_flush b (by omega), messageEngine_flush_of_full n msg hfull,
        messageEngine_absorbed_of_room n msg b hfull.ge (by omega), hnext]
    · rw [flushCount] at hfull ⊢
      rw [messageEngine_absorbed_of_room n msg b (by omega) (by omega),
        show (msg.length - 1) / 128 = msg.length / 128 by omega]

end MessageEngine

/-- Settles O21: the accepted CONSTRUCT and the span leave `messageEngine`, read field by field. -/
theorem updateClosedForm : Obligations.UpdateClosedForm := by
  intro n msg s hlow hhigh
  have hlegal : outputSizeLegal n = true := (outputSizeLegal_iff n).2 ⟨hlow, hhigh⟩
  have hupdate := execUpdate_active (s := s.accept (constructed n)) rfl (Nat.zero_le 128) msg
  rw [State.accept_engine, absorbedAll_constructed] at hupdate
  refine ⟨_, _, exec_construct_of_legal s hlegal, hupdate, rfl, rfl, messageEngine_bufferLength_toNat n msg ?_,
    fun j hj => ?_, fun j hj hj' => ?_, rfl, rfl, rfl, constructed_outputSize_toNat hlegal, rfl, rfl, rfl, rfl, rfl⟩
  · rw [flushCount]
    omega
  · exact (get_messageEngine_buffer n msg (by omega)).trans (if_pos hj)
  · exact (get_messageEngine_buffer n msg (by omega)).trans (if_neg (by rw [flushCount]; omega))

end Sys2Proof.Machine
end

section
/-! PROOF. FINALIZE (42_finalize.md R120): its word, its two rejections, and the last block compressed with its zero padding. -/

namespace Sys2Proof.Machine

/-- The accepted FINALIZE, register by register. -/
theorem Engine.finalize_eq (e : Engine) : e.finalize = { e with
    chain := compressChain e.chain (e.advanceCounter e.bufferLength).counter0 (e.advanceCounter e.bufferLength).counter1
      0xFFFFFFFFFFFFFFFF e.finalizationFlags1 e.pad.buffer
    counter0 := (e.advanceCounter e.bufferLength).counter0
    counter1 := (e.advanceCounter e.bufferLength).counter1
    finalizationFlags0 := 0xFFFFFFFFFFFFFFFF
    buffer := e.pad.buffer
    phase := .done } := rfl

/-- Of the words with FINALIZE's opcode only the one with operand 0 is a command. -/
theorem decode_commandWord_op3_of_ne {x : Byte} (h : x ≠ 0) : decode (commandWord 0x03 x) = .illegal (commandWord 0x03 x) := by
  refine decode_of_illegal _ ((isIllegalWord_iff _).2 ?_)
  rw [opField_commandWord, argField_commandWord]
  exact ⟨by decide, by decide, fun hfields => h hfields.2⟩

/-- Settles O13: the cases are those of the phase; in ACTIVE the block compressed is the padded buffer. -/
theorem finalizeCompressesThePaddedTail : Obligations.FinalizeCompressesThePaddedTail := by
  intro s
  refine ⟨fun x => ?encoding, fun hp => ?idle, fun hp => ?done, fun hp hwf => ?active⟩
  case encoding =>
    have hword : 0x0300#16 ||| x.setWidth 16 = commandWord 0x03 x := (commandWord_eq_or 0x03 x).symm
    rw [hword]
    split
    · next hx => rw [hx, decode_commandWord_finalize]
    · next hx => exact decode_commandWord_op3_of_ne hx
  case idle =>
    rw [exec_finalize, execFinalize_idle s hp, State.reject, Engine.latchErr_eq]
    rfl
  case done =>
    rw [exec_finalize, execFinalize_done s hp, State.reject, Engine.latchErr_eq]
    rfl
  case active =>
    refine ⟨s.engine.pad.buffer, (s.engine.advanceCounter s.engine.bufferLength).counter0,
      (s.engine.advanceCounter s.engine.bufferLength).counter1, ?_, s.engine.advanceCounter_t _, s.engine.pad_wf hwf,
      fun a ha => ?_⟩
    · rw [exec_finalize, execFinalize_active s hp, Engine.finalize_eq]
      rfl
    · rw [s.engine.pad_get a hwf]
      by_cases hlow : a < s.engine.bufferLength.toNat
      · rw [if_neg (by omega), if_pos hlow]
      · rw [if_pos (by omega), if_neg hlow]

end Sys2Proof.Machine
end

section
/-! PROOF. The digest (42_finalize.md R121, R124, R125; 44_hash_oneshot.md R160): the engine that CONSTRUCT, a message and FINALIZE
leave, written out in terms of the message, and what its window shows. -/

namespace Sys2Proof.Machine

section DigestEngine

variable (n : Byte) (msg : List Byte)

/-! ## FINALIZE after a message -/

/-- The fill clears what the flushes left behind the last block. -/
theorem messageEngine_pad_buffer {q : Nat} (h : msg.length ≤ 128 * (q + 1)) :
    (messageEngine n msg q).pad.buffer = blockBuffer (messageBlock msg q) := by
  have hlen := length_messageBlock msg q
  have hblock : (messageBlock msg q).length ≤ 128 := by omega
  have hwf : (messageEngine n msg q).buffer.wf = true := Buffer.putBytes_wf _ _ 0 (flushedBuffer_wf msg q) (by omega)
  refine Buffer.ext_get _ _ 0 (Engine.pad_wf _ hwf) (blockBuffer_wf hblock) fun a => ?_
  rw [Engine.pad_get _ a hwf, get_blockBuffer hblock, messageEngine_bufferLength_toNat n msg h]
  by_cases hin : a < (messageBlock msg q).length
  · rw [if_neg (by omega), get_messageEngine_buffer n msg (by omega), if_pos (by omega), getD_messageBlock msg q (by omega)]
  · rw [List.getD_eq_default _ _ (by omega)]
    split
    · rfl
    · exact Buffer.get_of_ge _ 0 a hwf (by omega)

/-- FINALIZE's advance completes the count to the length of the message (R121). -/
theorem messageEngine_advanceCounter_t {q : Nat} (h : 128 * q ≤ msg.length) (hroom : msg.length ≤ 128 * (q + 1)) :
    ((messageEngine n msg q).advanceCounter (messageEngine n msg q).bufferLength).t = BitVec.ofNat 128 msg.length := by
  have htail : (messageEngine n msg q).bufferLength.setWidth 128 = BitVec.ofNat 128 (msg.length - 128 * q) := by
    rw [← messageEngine_bufferLength_toNat n msg hroom, BitVec.ofNat_toNat]
  have hflushed : (messageEngine n msg q).t = BitVec.ofNat 128 (128 * q) := countHigh_append_countLow (128 * q)
  rw [Engine.advanceCounter_t, htail, hflushed, ← BitVec.ofNat_add, Nat.add_sub_cancel' h]

/-- The engine after an accepted CONSTRUCT `n`, the message `msg` and FINALIZE (R125). -/
def digestEngine : Engine :=
  { constructed n with
    chain := finalChain n msg
    counter0 := countLow msg.length
    counter1 := countHigh msg.length
    finalizationFlags0 := 0xFFFFFFFFFFFFFFFF
    buffer := blockBuffer (messageBlock msg (flushCount msg.length))
    bufferLength := BitVec.ofNat 8 (msg.length - 128 * flushCount msg.length)
    phase := .done }

theorem afterMessage_constructed : (constructed n).afterMessage msg = digestEngine n msg := by
  have hlow : 128 * flushCount msg.length ≤ msg.length := by rw [flushCount]; omega
  have hroom : msg.length ≤ 128 * (flushCount msg.length + 1) := by rw [flushCount]; omega
  obtain ⟨hc0, hc1⟩ := Engine.counters_of_t (messageEngine_advanceCounter_t n msg hlow hroom)
  rw [Engine.afterMessage, absorbedAll_constructed, Engine.finalize_eq, hc0, hc1, messageEngine_pad_buffer n msg hroom]
  rfl

/-! ## the window -/

theorem length_digestOf (h : n.toNat ≤ 64) : (digestOf n msg).length = n.toNat := by
  simp [digestOf, h]

theorem getD_digestOf (j : Fin 64) :
    (digestOf n msg).getD j.val 0x00 = if j.val < n.toNat then chainByte (finalChain n msg) j else 0x00 := by
  by_cases hj : j.val < n.toNat <;> simp [digestOf, List.getD_eq_getElem?_getD, hj]

/-- The window shows the digest and zeros above it (R124). -/
theorem digestEngine_digestRegister (h : outputSizeLegal n = true) (j : Fin 64) :
    (digestEngine n msg).digestRegister j = (digestOf n msg).getD j.val 0x00 := by
  have hsize : (digestEngine n msg).outputSize.toNat = n.toNat := constructed_outputSize_toNat h
  rw [getD_digestOf, Engine.digestRegister, hsize]
  simp [digestEngine]

theorem digestEngine_windowAnswers (h : outputSizeLegal n = true) :
    (digestEngine n msg).windowAnswers = (digestOf n msg).reverse.map .value := by
  have hsize : (digestEngine n msg).outputSize.toNat = n.toNat := constructed_outputSize_toNat h
  have hle : n.toNat ≤ 64 := ((outputSizeLegal_iff n).1 h).2
  have hlen := length_digestOf n msg hle
  rw [Engine.windowAnswers, List.map_reverse, hsize]
  refine congrArg List.reverse (List.ext_getElem (by simp [hlen]) fun j hj hj' => ?_)
  rw [List.length_map, hlen] at hj'
  rw [List.getElem_map, List.getElem_map, List.getElem_range, Engine.regRead_window _ ⟨j, by omega⟩,
    digestEngine_digestRegister n msg h, List.getD_eq_getElem]

end DigestEngine

/-- HASH with a legal size is the message on the constructed engine. -/
theorem execHash_eq {n : Byte} (h : outputSizeLegal n = true) (msg : List Byte) (s : State) :
    execHash n msg s = .next { s with
      engine := digestEngine n msg
      outputs := (digestOf n msg).reverse.map .value ++
        .response .ok :: List.replicate msg.length (.response .ok) ++ .response .ok :: s.outputs } := by
  have hmessage := execMessage_active (s := s.accept (constructed n)) rfl (Nat.zero_le 128) msg
  rw [execHash_of_legal h, execConstruct_of_legal n s h, andThen_next, hmessage, State.accept_engine, Engine.messageAnswers,
    afterMessage_constructed, digestEngine_windowAnswers n msg h, List.replicate_succ]
  rfl

/-- Settles O25: HASH leaves `digestEngine`, read field by field. -/
theorem hashAnswersTheDigestOfTheMessage : Obligations.HashAnswersTheDigestOfTheMessage := by
  intro n msg s hlow hhigh
  have hlegal : outputSizeLegal n = true := (outputSizeLegal_iff n).2 ⟨hlow, hhigh⟩
  refine ⟨_, execHash_eq hlegal msg s, rfl, rfl, rfl, rfl, countHigh_append_countLow msg.length, rfl, rfl, fun a _ => ?_, ?_,
    constructed_outputSize_toNat hlegal, rfl, rfl⟩
  · exact get_blockBuffer (by rw [length_messageBlock]; omega) a
  · exact messageEngine_bufferLength_toNat n msg (by rw [flushCount]; omega)

end Sys2Proof.Machine
end

section
/-! PROOF. Actions served between the commands of a computation (42_finalize.md R126, R129; 70_reset_and_hazards.md R212, R214): reads
and rejections leave every register but `err`, so what a run does to the engine is what its accepted ABSORBs do. -/

namespace Sys2Proof.Machine

/-- `t` is `s` after the bytes, whatever `err` and the record of answers hold. -/
structure State.Absorbs (bytes : List Byte) (s t : State) : Prop where
  pending : t.pending = s.pending
  work : t.work = s.work
  engine : ∃ code, t.engine = (s.engine.absorbedAll bytes).withErr code

section Served

variable {s t u : State}

theorem State.Absorbs.refl (s : State) : s.Absorbs [] s := ⟨rfl, rfl, s.engine.err, rfl⟩

theorem State.absorbs_readRegister (r : Byte) (s : State) : s.Absorbs [] (s.readRegister r) := ⟨rfl, rfl, s.engine.err, rfl⟩

theorem State.absorbs_reject (code : Code) (s : State) : s.Absorbs [] (s.reject code) :=
  ⟨rfl, rfl, _, s.engine.latchErr_eq code⟩

theorem State.absorbs_absorbed (b : Byte) (s : State) : s.Absorbs [b] (s.accept (s.engine.absorbed b)) := ⟨rfl, rfl, _, rfl⟩

theorem State.Absorbs.trans {bytes more : List Byte} (h : s.Absorbs bytes t) (h' : t.Absorbs more u) :
    s.Absorbs (bytes ++ more) u := by
  obtain ⟨hpending, hwork, code, hengine⟩ := h
  obtain ⟨hpending', hwork', code', hengine'⟩ := h'
  refine ⟨hpending'.trans hpending, hwork'.trans hwork, code', ?_⟩
  rw [hengine', hengine, Engine.absorbedAll_withErr, Engine.absorbedAll_append]
  rfl

theorem State.Absorbs.phase {bytes : List Byte} (h : s.Absorbs bytes t) : t.engine.phase = s.engine.phase := by
  obtain ⟨code, hengine⟩ := h.engine
  rw [hengine]
  exact Engine.absorbedAll_phase bytes s.engine

theorem Engine.absorbedAll_bufferLength_le {e : Engine} (h : e.bufferLength.toNat ≤ 128) (bytes : List Byte) :
    (e.absorbedAll bytes).bufferLength.toNat ≤ 128 := by
  induction bytes generalizing e with
  | nil => exact h
  | cons b rest ih =>
    refine ih ?_
    rw [e.absorbed_bufferLength_toNat b h]
    exact e.flush_bufferLength_lt h

theorem State.Absorbs.bufferLength_le {bytes : List Byte} (h : s.Absorbs bytes t) (hl : s.engine.bufferLength.toNat ≤ 128) :
    t.engine.bufferLength.toNat ≤ 128 := by
  obtain ⟨code, hengine⟩ := h.engine
  rw [hengine]
  exact Engine.absorbedAll_bufferLength_le hl bytes

/-! ## from DONE -/

/-- A read, or a word that is no accepted CONSTRUCT. -/
def HostAction.KeepsDigest (a : HostAction) : Prop :=
  (∃ r, a = .regRead r) ∨ ∃ w, a = .cmd w ∧ ∀ arg, decode w = .construct arg → ¬(1 ≤ arg.toNat ∧ arg.toNat ≤ 64)

theorem takeAction_done {a : HostAction} (ha : a.KeepsDigest) (hp : s.engine.phase = .done) :
    ∃ t, takeAction a s = .next t ∧ s.Absorbs [] t := by
  obtain ⟨r, rfl⟩ | ⟨w, rfl, hw⟩ := ha
  · exact ⟨_, rfl, s.absorbs_readRegister r⟩
  · obtain ⟨code, hexec⟩ := exec_decode_done hp hw
    exact ⟨_, hexec, s.absorbs_reject code⟩

theorem takeAll_done {acts : List HostAction} (hacts : ∀ a ∈ acts, a.KeepsDigest) (hp : s.engine.phase = .done) :
    ∃ t, takeAll acts s = .next t ∧ s.Absorbs [] t := by
  induction acts generalizing s with
  | nil => exact ⟨s, rfl, .refl s⟩
  | cons a acts ih =>
    obtain ⟨ha, hrest⟩ := List.forall_mem_cons.1 hacts
    obtain ⟨t, hstep, ht⟩ := takeAction_done ha hp
    obtain ⟨u, hrun, hu⟩ := ih hrest (ht.phase.trans hp)
    exact ⟨u, by rw [takeAll_cons, hstep, andThen_next, hrun], ht.trans hu⟩

/-! ## between CONSTRUCT and FINALIZE -/

/-- A read, an ABSORB, a rejected CONSTRUCT or an illegal word. -/
def HostAction.KeepsActive (a : HostAction) : Prop :=
  (∃ r, a = .regRead r) ∨
    ∃ w, a = .cmd w ∧ decode w ≠ .finalize ∧ ∀ arg, decode w = .construct arg → ¬(1 ≤ arg.toNat ∧ arg.toNat ≤ 64)

/-- The message byte of an action that is an ABSORB. -/
def HostAction.byte (a : HostAction) : Option Byte :=
  match a with
  | .cmd w => (match decode w with | .absorb b => some b | _ => none)
  | _ => none

theorem takeAction_active {a : HostAction} (ha : a.KeepsActive) (hp : s.engine.phase = .active)
    (hl : s.engine.bufferLength.toNat ≤ 128) : ∃ t, takeAction a s = .next t ∧ s.Absorbs a.byte.toList t := by
  obtain ⟨r, rfl⟩ | ⟨w, rfl, hfinalize, hconstruct⟩ := ha
  · exact ⟨_, rfl, s.absorbs_readRegister r⟩
  · rw [takeAction, HostAction.byte]
    obtain ⟨arg, hd⟩ | ⟨b, hd⟩ | hd | hd := decode_cases w
    · have hillegal : outputSizeLegal arg = false := by
        rw [Bool.eq_false_iff, ne_eq, outputSizeLegal_iff]
        exact hconstruct arg hd
      rw [hd]
      exact ⟨_, execConstruct_of_illegal arg s hillegal, s.absorbs_reject _⟩
    · rw [hd]
      exact ⟨_, exec_absorb_active b hp hl, s.absorbs_absorbed b⟩
    · exact absurd hd hfinalize
    · rw [hd]
      exact ⟨_, rfl, s.absorbs_reject _⟩

theorem takeAll_active {acts : List HostAction} (hacts : ∀ a ∈ acts, a.KeepsActive) (hp : s.engine.phase = .active)
    (hl : s.engine.bufferLength.toNat ≤ 128) : ∃ t, takeAll acts s = .next t ∧ s.Absorbs (acts.filterMap HostAction.byte) t := by
  induction acts generalizing s with
  | nil => exact ⟨s, rfl, .refl s⟩
  | cons a acts ih =>
    obtain ⟨ha, hrest⟩ := List.forall_mem_cons.1 hacts
    obtain ⟨t, hstep, ht⟩ := takeAction_active ha hp hl
    obtain ⟨u, hrun, hu⟩ := ih hrest (ht.phase.trans hp) (ht.bufferLength_le hl)
    have hbytes : (a :: acts).filterMap HostAction.byte = a.byte.toList ++ acts.filterMap HostAction.byte := by
      rw [List.filterMap_cons]
      cases a.byte <;> rfl
    rw [hbytes]
    exact ⟨u, by rw [takeAll_cons, hstep, andThen_next, hrun], ht.trans hu⟩

/-- A computation driven word by word leaves the engine of its bytes, with whatever `err` the rejections latched. -/
theorem takeAll_computation {n : Byte} {acts : List HostAction} (hn : outputSizeLegal n = true)
    (hacts : ∀ a ∈ acts, a.KeepsActive) (s : State) :
    ∃ t code, takeAll (.cmd (commandWord 0x01 n) :: (acts ++ [.cmd (commandWord 0x03 0x00)])) s = .next t ∧
      t.pending = s.pending ∧ t.engine = (digestEngine n (acts.filterMap HostAction.byte)).withErr code := by
  obtain ⟨t, hrun, ht⟩ := takeAll_active (s := s.accept (constructed n)) hacts rfl (Nat.zero_le 128)
  obtain ⟨code, hengine⟩ := ht.engine
  refine ⟨t.accept t.engine.finalize, code, ?_, ht.pending, ?_⟩
  · rw [takeAll_cons, takeAction_construct, execConstruct_of_legal n s hn, andThen_next, takeAll_append, hrun, andThen_next,
      takeAll_cons, takeAction_finalize, execFinalize_active t ht.phase, andThen_next]
    rfl
  · rw [State.accept_engine, hengine, Engine.finalize_withErr, State.accept_engine, ← afterMessage_constructed]
    rfl

end Served

/-- Settles O43: nothing is absorbed in DONE, and the window does not show `err`. -/
theorem digestStaysUntilConstructOrReset : Obligations.DigestStaysUntilConstructOrReset := by
  intro acts s hp hacts
  have hrun := runSteps_eq_takeAll acts [] s
  rw [List.append_nil] at hrun
  obtain ⟨t, htake, hpending, hwork, code, hengine⟩ := takeAll_done (s := s.withPending []) hacts hp
  refine ⟨t, hrun.trans htake, hpending, hwork, by rw [hengine]; rfl, fun j => ?_⟩
  rw [Engine.regRead_window, Engine.regRead_window, hengine]
  rfl

/-- Settles O26: the run takes the actions of the computation, and the window shows the digest whatever `err` holds. -/
theorem digestDependsOnSizeAndBytesOnly : Obligations.DigestDependsOnSizeAndBytesOnly := by
  intro n acts rest s hlow hhigh hacts bytes
  have hlegal : outputSizeLegal n = true := (outputSizeLegal_iff n).2 ⟨hlow, hhigh⟩
  have hrun := runSteps_eq_takeAll (.cmd (commandWord 0x01 n) :: (acts ++ [.cmd (commandWord 0x03 0x00)])) rest s
  rw [List.length_cons, List.length_append, List.length_singleton, List.cons_append, List.append_assoc] at hrun
  obtain ⟨t, code, htake, hpending, hengine⟩ := takeAll_computation hlegal hacts (s.withPending rest)
  refine ⟨t, hrun.trans htake, hpending, by rw [hengine]; rfl, fun j => ?_⟩
  rw [Engine.regRead_window, hengine]
  exact digestEngine_digestRegister n bytes hlegal j

end Sys2Proof.Machine
end

section
/-! PROOF. G (43_compress.md R137) as a function of four words: its two halves, the inverse of each, and what a working vector holds at
G's four indices. -/

namespace Sys2Proof.Machine

theorem rotateLeft_rotateRight (x : Word) (n : Nat) : (x.rotateRight n).rotateLeft n = x := by
  ext i hi
  rw [BitVec.getElem_rotateLeft]
  split
  · next hlow =>
    rw [BitVec.getElem_rotateRight, dif_neg (by omega)]
    congr 1; omega
  · next hhigh =>
    rw [BitVec.getElem_rotateRight, dif_pos (by omega)]
    congr 1; omega

/-- A rotation to the right is injective, so among finitely many words it is onto, and its left inverse is its right inverse too. -/
theorem rotateRight_rotateLeft (x : Word) (n : Nat) : (x.rotateLeft n).rotateRight n = x := by
  have hleft : Function.LeftInverse (fun x : Word => x.rotateLeft n) (fun x => x.rotateRight n) :=
    fun x => rotateLeft_rotateRight x n
  exact hleft.rightInverse_of_surjective (Finite.surjective_of_injective hleft.injective) x

/-- The four words that an application of G reads and writes. -/
@[ext] structure Lanes where
  a : Word
  b : Word
  c : Word
  d : Word

namespace Lanes

/-- The first six of G's twelve statements, for `n = 32` and `k = 24`; the last six are these with `y` for `x`, and 16 and 63. -/
def half (x : Word) (n k : Nat) (q : Lanes) : Lanes :=
  let a := q.a + q.b + x
  let d := (q.d ^^^ a).rotateRight n
  let c := q.c + d
  ⟨a, (q.b ^^^ c).rotateRight k, c, d⟩

/-- The statements of `half` undone, the last one first. -/
def unhalf (x : Word) (n k : Nat) (q : Lanes) : Lanes :=
  let b := q.b.rotateLeft k ^^^ q.c
  ⟨q.a - x - b, b, q.c - q.d, q.d.rotateLeft n ^^^ q.a⟩

theorem unhalf_half (x : Word) (n k : Nat) (q : Lanes) : (q.half x n k).unhalf x n k = q := by
  ext1 <;> simp [half, unhalf, rotateLeft_rotateRight]

theorem half_unhalf (x : Word) (n k : Nat) (q : Lanes) : (q.unhalf x n k).half x n k = q := by
  ext1 <;> simp [half, unhalf, rotateRight_rotateLeft]

/-- G on its four words. -/
def mix (x y : Word) (q : Lanes) : Lanes := (q.half x 32 24).half y 16 63

/-- The inverse of G on its four words. -/
def unmix (x y : Word) (q : Lanes) : Lanes := (q.unhalf y 16 63).unhalf x 32 24

theorem unmix_mix (x y : Word) (q : Lanes) : (q.mix x y).unmix x y = q := by
  rw [mix, unmix, unhalf_half, unhalf_half]

theorem mix_unmix (x y : Word) (q : Lanes) : (q.unmix x y).mix x y = q := by
  rw [mix, unmix, half_unhalf, half_unhalf]

theorem mix_injective (x y : Word) : Function.Injective (mix x y) := Function.LeftInverse.injective (unmix_mix x y)

/-- The vector with the four words written at four indices. -/
def store (q : Lanes) (v : Vector Word 16) (a b c d : Fin 16) : Vector Word 16 :=
  (((v.set a q.a).set b q.b).set c q.c).set d q.d

end Lanes

/-- The words of a vector at four indices. -/
def lanesAt (v : Vector Word 16) (a b c d : Fin 16) : Lanes := ⟨v[a], v[b], v[c], v[d]⟩

section Indices

variable {u v : Vector Word 16} {a b c d a' b' c' d' : Fin 16} {x y x' y' : Word}

theorem vals_ne_of_nodup (h : [a, b, c, d].Nodup) :
    a.val ≠ b.val ∧ a.val ≠ c.val ∧ a.val ≠ d.val ∧ b.val ≠ c.val ∧ b.val ≠ d.val ∧ c.val ≠ d.val := by
  simpa [Fin.ext_iff, and_assoc] using h

theorem lanesAt_store (h : [a, b, c, d].Nodup) (q : Lanes) : lanesAt (q.store v a b c d) a b c d = q := by
  obtain ⟨hab, hac, had, hbc, hbd, hcd⟩ := vals_ne_of_nodup h
  ext1 <;> simp [lanesAt, Lanes.store, hab, hac, had, hbc, hbd, hcd, Ne.symm]

theorem Lanes.store_other (q : Lanes) (k : Fin 16) (h : k ∉ [a, b, c, d]) : (q.store v a b c d)[k] = v[k] := by
  simp only [List.mem_cons, List.not_mem_nil, or_false, not_or, Fin.ext_iff] at h
  obtain ⟨ha, hb, hc, hd⟩ := h
  simp [Lanes.store, Ne.symm, ha, hb, hc, hd]

/-- G at four distinct indices is G on the four words that stand there. -/
theorem lanesAt_mix (h : [a, b, c, d].Nodup) : lanesAt (mix v a b c d x y) a b c d = (lanesAt v a b c d).mix x y := by
  obtain ⟨hab, hac, had, hbc, hbd, hcd⟩ := vals_ne_of_nodup h
  ext1 <;> simp [lanesAt, Lanes.mix, Lanes.half, mix, rotr64_eq_rotateRight, hab, hac, had, hbc, hbd, hcd, Ne.symm]

theorem lanesAt_eq_iff : lanesAt u a b c d = lanesAt v a b c d ↔ ∀ k ∈ [a, b, c, d], u[k] = v[k] := by
  simp [lanesAt]

theorem vector_ext {u v : Vector Word 16} (h : ∀ k : Fin 16, u[k] = v[k]) : u = v :=
  Vector.ext fun i hi => h ⟨i, hi⟩

/-- A vector is its words at four indices and its words elsewhere. -/
theorem eq_of_lanesAt (a b c d : Fin 16) (hq : lanesAt u a b c d = lanesAt v a b c d)
    (ho : ∀ k ∉ [a, b, c, d], u[k] = v[k]) : u = v := by
  refine vector_ext fun k => ?_
  by_cases hk : k ∈ [a, b, c, d]
  · exact lanesAt_eq_iff.1 hq k hk
  · exact ho k hk

theorem mix_injective (h : [a, b, c, d].Nodup) (heq : mix u a b c d x y = mix v a b c d x y) : u = v := by
  refine eq_of_lanesAt a b c d (Lanes.mix_injective x y ?_) fun k hk => ?_
  · rw [← lanesAt_mix h, ← lanesAt_mix h, heq]
  · rw [← mix_other u a b c d x y k hk, ← mix_other v a b c d x y k hk, heq]

/-- Settles O31: the preimage of a vector is that vector with the four words taken back through `Lanes.unmix`. -/
theorem mixingFunctionIsABijection : Obligations.MixingFunctionIsABijection := by
  intro a b c d x y h v'
  have himage : mix (((lanesAt v' a b c d).unmix x y).store v' a b c d) a b c d x y = v' := by
    refine eq_of_lanesAt a b c d ?_ fun k hk => ?_
    · rw [lanesAt_mix h, lanesAt_store h, Lanes.mix_unmix]
    · rw [mix_other _ a b c d x y k hk, Lanes.store_other _ k hk]
  exact ⟨_, himage, fun u hu => mix_injective h (hu.trans himage.symm)⟩

/-- At its own four indices an application of G has the same effect before and after one at four others. -/
theorem mix_mix_of_mem (hq : [a, b, c, d].Nodup) (hdisjoint : [a, b, c, d].Disjoint [a', b', c', d']) {k : Fin 16}
    (hk : k ∈ [a, b, c, d]) :
    (mix (mix v a' b' c' d' x' y') a b c d x y)[k] = (mix (mix v a b c d x y) a' b' c' d' x' y')[k] := by
  have hread : lanesAt (mix v a' b' c' d' x' y') a b c d = lanesAt v a b c d :=
    lanesAt_eq_iff.2 fun j hj => mix_other v a' b' c' d' x' y' j (hdisjoint hj)
  have hwritten : lanesAt (mix (mix v a' b' c' d' x' y') a b c d x y) a b c d = lanesAt (mix v a b c d x y) a b c d := by
    rw [lanesAt_mix hq, lanesAt_mix hq, hread]
  rw [lanesAt_eq_iff.1 hwritten k hk, mix_other (mix v a b c d x y) a' b' c' d' x' y' k (hdisjoint hk)]

theorem mix_comm (hq : [a, b, c, d].Nodup) (hq' : [a', b', c', d'].Nodup) (hdisjoint : [a, b, c, d].Disjoint [a', b', c', d']) :
    mix (mix v a b c d x y) a' b' c' d' x' y' = mix (mix v a' b' c' d' x' y') a b c d x y := by
  refine vector_ext fun k => ?_
  by_cases hk : k ∈ [a, b, c, d]
  · exact (mix_mix_of_mem hq hdisjoint hk).symm
  by_cases hk' : k ∈ [a', b', c', d']
  · exact mix_mix_of_mem hq' hdisjoint.symm hk'
  · rw [mix_other _ a' b' c' d' x' y' k hk', mix_other _ a b c d x y k hk, mix_other _ a b c d x y k hk,
      mix_other _ a' b' c' d' x' y' k hk']

end Indices

theorem exec_g (a b c d : Fin 16) (x y : Word) (s : State) :
    exec (.g a b c d x y) s = .next { s with work := { s.work with v := mix s.work.v a b c d x y } } := rfl

/-- Settles O30: the four words are those of `Lanes.mix`, whose two halves are the twelve statements; `mix_other` has the twelve words
left alone. -/
theorem mixingFunctionResult : Obligations.MixingFunctionResult := by
  intro a b c d x y s h
  refine ⟨_, exec_g a b c d x y s, mix_other s.work.v a b c d x y, ?_⟩
  obtain ⟨ha, hb, hc, hd⟩ := Lanes.ext_iff.1 (lanesAt_mix (v := s.work.v) (x := x) (y := y) h)
  generalize mix s.work.v a b c d x y = v at *
  simp only [lanesAt] at ha hb hc hd
  exact ⟨ha, by rw [ha]; exact hd, by rw [hd]; exact hc, by rw [hc]; exact hb⟩

/-- Settles O32: G changes the vector alone, and there the two applications commute (`mix_comm`). -/
theorem disjointApplicationsOfGCommute : Obligations.DisjointApplicationsOfGCommute := by
  intro a b c d a' b' c' d' x y x' y' s h
  obtain ⟨hq, hq', hdisjoint⟩ := List.nodup_append'.1 (show ([a, b, c, d] ++ [a', b', c', d']).Nodup from h)
  rw [exec_g, exec_g, andThen_next, andThen_next, exec_g, exec_g, mix_comm hq hq' hdisjoint]

end Sys2Proof.Machine
end

section
/-! PROOF. ROUND and COMPRESS (43_compress.md R130 to R138) as sequences of instructions, and SIGMA (R132, R141). -/

namespace Sys2Proof.Machine

theorem exec_round (r : Fin 12) (s : State) : exec (.round r) s = .next { s with work := s.work.round r } := rfl

theorem exec_compress (s : State) : exec .compress s = .next { s with engine := { s.engine with
    chain := feedForward s.engine.chain s.engine.beginWork.rounds.v } } := rfl

/-- Settles O29: the closed form's indices, computed for the eight applications, are those that ROUND writes out, and each G runs on the
vector the one before it left. -/
theorem roundIsEightApplicationsOfG : Obligations.RoundIsEightApplicationsOfG := by
  intro r s
  refine ⟨mixRound s.work.m sigma[r] s.work.v, exec_round r s, ?_⟩
  have hschedule : List.finRange 8 = [0, 1, 2, 3, 4, 5, 6, 7] := rfl
  simp only [hschedule, List.foldl_cons, List.foldl_nil, andThen_next, exec_g]
  rw [mixRound]
  rfl

/-- ROUND changes the transient registers alone, so ROUNDs in order fold their effects on these. -/
theorem foldl_exec_round (rs : List (Fin 12)) (s : State) :
    rs.foldl (fun o r => andThen o (exec (.round r))) (.next s) =
      .next { s with work := rs.foldl (fun w r => w.round r) s.work } := by
  induction rs generalizing s with
  | nil => rfl
  | cons r rs ih => rw [List.foldl_cons, List.foldl_cons, andThen_next, exec_round, ih]

/-- Settles O28: `Engine.beginWork` is steps 1 and 2, and `Work.rounds` steps 3 and 4. -/
theorem compressIsTwelveRounds : Obligations.CompressIsTwelveRounds := by
  intro s
  refine ⟨s.engine.beginWork, s.engine.beginWork.rounds, fun i => ?chain, fun i => ?iv, rfl, rfl, rfl, rfl,
    (messageWordsAreLittleEndian s.engine.buffer).1, foldl_exec_round _ _, ?feedForward⟩
  case chain => fin_cases i <;> rfl
  case iv => fin_cases i <;> rfl
  case feedForward => rw [exec_compress, feedForward]

theorem sigma_row_injective : ∀ r : Fin 12, Function.Injective fun j : Fin 16 => sigma[r][j] := by decide

/-- Settles O33: sixteen different indices out of sixteen are all of them. -/
theorem sigmaRowsArePermutations : Obligations.SigmaRowsArePermutations := by
  refine ⟨fun r x => ?_, by decide, rfl, rfl⟩
  have hbijective : Function.Bijective fun j : Fin 16 => sigma[r][j] :=
    Finite.injective_iff_bijective.1 (sigma_row_injective r)
  exact hbijective.existsUnique x

end Sys2Proof.Machine
end

section
/-! PROOF. HASH as the composition of its rows (44_hash_oneshot.md R160, R161), and HEX (R163). -/

namespace Sys2Proof.Machine

/-- Settles O24: an accepted CONSTRUCT is followed by the message, and a rejected one ends HASH. -/
theorem hashIsTheComposition : Obligations.HashIsTheComposition := by
  intro n input s
  refine ⟨fun hsize => ?_, fun hsize => ?_⟩
  · have hlegal : outputSizeLegal n = true := (outputSizeLegal_iff n).2 hsize
    calc exec (.hash n input) s
        = andThen (execConstruct n s) fun t => andThen (execUpdate input t) fun u => andThen (execFinalize u) execReadDigest :=
          execHash_of_legal hlegal input s
      _ = andThen (andThen (andThen (execConstruct n s) (execUpdate input)) execFinalize) execReadDigest := by
          rw [andThen_assoc, andThen_assoc]
  · have hillegal : outputSizeLegal n = false := Bool.eq_false_iff.2 (mt (outputSizeLegal_iff n).1 hsize)
    obtain ⟨-, -, hrejected⟩ := constructInitializesEveryRegister n s
    rw [exec_hash, execHash_of_illegal hillegal, ← exec_construct]
    exact hrejected hsize

/-! ## HEX -/

theorem hexEncode_cons (b : Byte) (rest : List Byte) :
    hexEncode (b :: rest) = hexDigit (b.extractLsb' 4 4) :: hexDigit (b.extractLsb' 0 4) :: hexEncode rest := rfl

/-- The digits of the sixteen nibbles are those of the spec's string, in its order. -/
theorem some_hexDigit : ∀ x : BitVec 4, some (hexDigit x) = "0123456789abcdef".toList[x.toNat]? := by decide

theorem highNibble_toNat (b : Byte) : (b.extractLsb' 4 4).toNat = b.toNat / 16 := by
  have hb := b.isLt
  rw [BitVec.extractLsb'_toNat, Nat.shiftRight_eq_div_pow]
  omega

theorem lowNibble_toNat (b : Byte) : (b.extractLsb' 0 4).toNat = b.toNat % 16 := by
  rw [BitVec.extractLsb'_toNat, Nat.shiftRight_zero]

theorem length_hexEncode (bytes : List Byte) : (hexEncode bytes).length = 2 * bytes.length := by
  induction bytes with
  | nil => rfl
  | cons b rest ih =>
    simp only [hexEncode_cons, List.length_cons, ih]
    omega

/-- Each byte before `j` takes two places. -/
theorem hexEncode_getElem? (bytes : List Byte) (j : Nat) (h : j < bytes.length) :
    (hexEncode bytes)[2 * j]? = some (hexDigit (bytes[j].extractLsb' 4 4)) ∧
    (hexEncode bytes)[2 * j + 1]? = some (hexDigit (bytes[j].extractLsb' 0 4)) := by
  induction bytes generalizing j with
  | nil => exact absurd h (Nat.not_lt_zero j)
  | cons b rest ih =>
    cases j with
    | zero => exact ⟨rfl, rfl⟩
    | succ j => exact ih j (Nat.lt_of_succ_lt_succ h)

/-- Settles O52: the two digits that stand for byte `j` are those of its quotient and its remainder by 16. -/
theorem hexHasTwoDigitsAByte : Obligations.HexHasTwoDigitsAByte := by
  refine fun bytes => ⟨length_hexEncode bytes, fun j h => ?_⟩
  obtain ⟨hhigh, hlow⟩ := hexEncode_getElem? bytes j h
  rw [hhigh, hlow, some_hexDigit, some_hexDigit, highNibble_toNat, lowNibble_toNat]
  exact ⟨rfl, rfl⟩

end Sys2Proof.Machine
end

section
/-! PROOF. Rejections (60_exceptions.md R175 to R178): what a command word does to `err`, and which response it gets. -/

namespace Sys2Proof.Machine

variable {w : CmdWord} {s t : State}

/-- Rejection entry, register by register (R176). -/
theorem State.reject_eq (s : State) (code : Code) : s.reject code = { s with
    engine := { s.engine with err := if s.engine.err = .ok then code else s.engine.err }
    outputs := .response code :: s.outputs } := by
  rw [State.reject, Engine.latchErr_eq]
  rfl

theorem exec_illegal (w : CmdWord) (s : State) : exec (.illegal w) s = .next (s.reject .illegalCommand) := rfl

/-- Settles O15: the ILLEGAL row is the rejection with code 4, with no check before it. -/
theorem illegalWordsAreRejectedInEveryPhase : Obligations.IllegalWordsAreRejectedInEveryPhase := by
  intro w s hd
  rw [hd, exec_illegal, State.reject_eq]

/-! ## `err` -/

/-- What a command word can do to `err` (R177): a rejection latches its code, an accepted CONSTRUCT starts a new engine, and any other
accepted command keeps it. -/
inductive ErrEffect (w : CmdWord) (s t : State) : Prop where
  | rejected (code : Code) (ht : t = s.reject code)
  | constructAccepted (arg : Byte) (hd : decode w = .construct arg) (hl : outputSizeLegal arg = true)
      (ht : t = s.accept (constructed arg))
  | kept (e : Engine) (he : e.err = s.engine.err) (ht : t = s.accept e)

theorem CommandEffect.errEffect (hc : CommandEffect w s t) : ErrEffect w s t := by
  cases hc with
  | constructRejected arg hd hl ht => exact .rejected _ ht
  | constructAccepted arg hd hl ht => exact .constructAccepted arg hd hl ht
  | idleRejected hd hp ht => exact .rejected _ ht
  | doneRejected hd hp ht => exact .rejected _ ht
  | absorbAccepted b hd hp hl ht => exact .kept _ (s.engine.absorbed_err b) ht
  | finalizeAccepted hd hp ht => exact .kept _ s.engine.finalize_err ht
  | illegalRejected hd ht => exact .rejected _ ht

/-- Only a rejection has a response other than OK. -/
theorem ErrEffect.eq_reject {code : Code} (he : ErrEffect w s t) (hr : t.lastResponse = some code) (hcode : code ≠ .ok) :
    t = s.reject code := by
  cases he with
  | rejected code' ht =>
    subst ht
    rw [State.reject_lastResponse, Option.some.injEq] at hr
    rw [hr]
  | constructAccepted arg hd hl ht => subst ht; exact absurd (Option.some.inj hr).symm hcode
  | kept e he ht => subst ht; exact absurd (Option.some.inj hr).symm hcode

/-- Settles O16: a word with such a response was rejected, and the rejection is its entry alone. -/
theorem rejectionChangesNothingButErr : Obligations.RejectionChangesNothingButErr := by
  intro w s t code hexec hr hcode
  rw [(exec_decode_cases hexec).errEffect.eq_reject hr hcode, State.reject_eq]

/-- Only a reset and an accepted CONSTRUCT change a latched `err`. -/
theorem step_latched (h : step s = .next t) (hlatched : s.engine.err ≠ .ok) : t.engine.err = s.engine.err ∨
    (t.engine.err = .ok ∧ ((∃ rest, s.pending = .reset :: rest) ∨
      ∃ w arg rest, s.pending = .cmd w :: rest ∧ decode w = .construct arg ∧ 1 ≤ arg.toNat ∧ arg.toNat ≤ 64)) := by
  cases step_cases h with
  | idle hq ht => exact .inl (by rw [ht])
  | read n rest hq ht => exact .inl (by rw [ht, State.readRegister_engine])
  | reset rest hq ht => exact .inr ⟨by rw [ht]; rfl, .inl ⟨rest, hq⟩⟩
  | command w rest hq hc =>
    cases hc.errEffect with
    | rejected code ht =>
      rw [ht, State.reject_engine, Engine.latchErr_err]
      exact .inl (if_neg hlatched)
    | constructAccepted arg hd hl ht => exact .inr ⟨by rw [ht]; rfl, .inr ⟨w, arg, rest, hq, hd, (outputSizeLegal_iff arg).1 hl⟩⟩
    | kept e he ht => exact .inl (by rw [ht]; exact he)

/-- Only a rejection latches `err`, with the code that it responds. -/
theorem step_latches (h : step s = .next t) (hclear : s.engine.err = .ok) (hlatched : t.engine.err ≠ .ok) :
    (∃ w rest, s.pending = .cmd w :: rest) ∧ t.lastResponse = some t.engine.err := by
  cases step_cases h with
  | idle hq ht => exact absurd (ht ▸ hclear) hlatched
  | read n rest hq ht => subst ht; exact absurd hclear hlatched
  | reset rest hq ht => subst ht; exact absurd rfl hlatched
  | command w rest hq hc =>
    refine ⟨⟨w, rest, hq⟩, ?_⟩
    cases hc.errEffect with
    | rejected code ht =>
      rw [ht, State.reject_lastResponse, State.reject_engine, Engine.latchErr_err]
      exact congrArg some (if_pos hclear).symm
    | constructAccepted arg hd hl ht => subst ht; exact absurd rfl hlatched
    | kept e he ht => subst ht; exact absurd (he.trans hclear) hlatched

/-- Settles O17: a rejection latches as R176 says, a reset and an accepted CONSTRUCT leave a cleared `err`, and the last two parts are
the only ways in which a step clears it or sets it. -/
theorem errKeepsTheFirstCause : Obligations.ErrKeepsTheFirstCause := by
  intro s t h
  refine ⟨fun w rest code hq hr hcode => ?rejected, fun rest hq => ?reset, fun w arg rest hq hd hlow hhigh => ?constructed,
    step_latched h, step_latches h⟩
  case rejected =>
    rw [step_pending s _ rest hq] at h
    rw [rejectionChangesNothingButErr w _ t code h hr hcode]
  case reset =>
    rw [step_pending s _ rest hq] at h
    cases h; rfl
  case constructed =>
    rw [step_pending s _ rest hq, takeAction, hd, exec_construct_of_legal _ ((outputSizeLegal_iff arg).2 ⟨hlow, hhigh⟩)] at h
    cases h; rfl

/-! ## the response -/

theorem execConstruct_response (arg : Byte) (s : State) : ∃ t, execConstruct arg s = .next t ∧
    t.lastResponse = some (if 1 ≤ arg.toNat ∧ arg.toNat ≤ 64 then .ok else .badOutputSize) := by
  simp only [← outputSizeLegal_iff]
  cases hl : outputSizeLegal arg with
  | true => exact ⟨_, execConstruct_of_legal arg s hl, rfl⟩
  | false => exact ⟨_, execConstruct_of_illegal arg s hl, rfl⟩

/-- Where ABSORB completes, its response is its phase check's. -/
theorem execAbsorb_response (b : Byte) (hl : s.engine.bufferLength.toNat ≤ 128) : ∃ t, execAbsorb b s = .next t ∧
    t.lastResponse = some ((phaseCheck s.engine.phase).getD .ok) := by
  cases hp : s.engine.phase with
  | idle => exact ⟨_, execAbsorb_idle b s hp, rfl⟩
  | active => exact ⟨_, exec_absorb_active b hp hl, rfl⟩
  | done => exact ⟨_, execAbsorb_done b s hp, rfl⟩

theorem execFinalize_response (s : State) : ∃ t, execFinalize s = .next t ∧
    t.lastResponse = some ((phaseCheck s.engine.phase).getD .ok) := by
  cases hp : s.engine.phase with
  | idle => exact ⟨_, execFinalize_idle s hp, rfl⟩
  | active => exact ⟨_, execFinalize_active s hp, rfl⟩
  | done => exact ⟨_, execFinalize_done s hp, rfl⟩

/-- Settles O18: the decoder's four answers are the matrix's rows; ABSORB and FINALIZE share theirs. -/
theorem responseMatrix : Obligations.ResponseMatrix := by
  refine ⟨by decide, fun w s hl => ?_⟩
  obtain ⟨hconstruct, habsorb, hfinalize, hillegal⟩ := decoderReadsOpAndArg w
  by_cases h1 : w.toNat / 256 = 1
  · rw [if_pos h1, hconstruct h1, exec_construct]
    simpa using execConstruct_response (BitVec.ofNat 8 (w.toNat % 256)) s
  by_cases h2 : w.toNat / 256 = 2 ∨ w.toNat = 768
  · have hresponse : ∃ t, exec (decode w) s = .next t ∧ t.lastResponse = some ((phaseCheck s.engine.phase).getD .ok) := by
      obtain h2 | h3 := h2
      · rw [habsorb h2]; exact execAbsorb_response _ hl
      · rw [hfinalize h3]; exact execFinalize_response s
    rw [if_neg h1, if_pos h2]
    cases hp : s.engine.phase <;> rw [hp] at hresponse <;> exact hresponse
  · rw [if_neg h1, if_neg h2, hillegal h1 (fun h => h2 (.inl h)) (fun h => h2 (.inr h))]
    exact ⟨_, exec_illegal w s, rfl⟩

end Sys2Proof.Machine
end

section
/-! PROOF. What a step runs (70_reset_and_hazards.md R210), and that no run from a state that meets the invariant stops (R222;
60_exceptions.md R180). -/

namespace Sys2Proof.Machine

/-- A 16-bit command word is its own table word. -/
@[simp] theorem tableWord_toNat (w : CmdWord) : tableWord 16 w.toNat = w := by
  rw [tableWord, Nat.mod_eq_of_lt w.isLt, BitVec.ofNat_toNat, BitVec.setWidth_eq]

theorem withFetchWord_pending (s : State) (w : CmdWord) : (s.withFetchWord 16 w.toNat).pending = .cmd w :: s.pending := by
  rw [State.withFetchWord, tableWord_toNat, State.presentWord_pending]

/-- Settles O5: the oldest action is taken alone, and the decoder gives back the instruction whose word it is. -/
theorem stepRunsTheDecodedCommand : Obligations.StepRunsTheDecodedCommand := by
  refine ⟨fun s i w rest hwf hw hq => ?encoded, fun s w => ?stored⟩
  case encoded => rw [step_pending s _ rest hq, takeAction, decode_of_encode hwf hw]
  case stored => exact step_pending _ _ _ (withFetchWord_pending s w)

/-! ## progress -/

variable {s : State}

/-- The one stop of a host action is ABSORB's, with more than 128 bytes in the buffer (log 5): short of that every word has its response
of R178. -/
theorem takeAction_completes (a : HostAction) (hl : s.engine.bufferLength.toNat ≤ 128) : ∃ t, takeAction a s = .next t := by
  cases a with
  | cmd w =>
    obtain ⟨t, hexec, -⟩ := responseMatrix.2 w s hl
    exact ⟨t, hexec⟩
  | regRead n => exact ⟨_, rfl⟩
  | reset => exact ⟨_, rfl⟩

theorem State.Inv.step_completes (h : s.Inv) : ∃ t, step s = .next t := by
  cases hq : s.pending with
  | nil => exact ⟨s, step_idle s hq⟩
  | cons a rest =>
    rw [step_pending s a rest hq]
    exact takeAction_completes a h.length_le

/-- Settles O47, by induction on the number of steps: each completes, and keeps the invariant for the next. -/
theorem noRunStops : Obligations.NoRunStops := by
  intro k
  induction k with
  | zero => exact fun s h => ⟨s, runSteps_zero s, h⟩
  | succ k ih =>
    intro s h
    obtain ⟨u, hstep⟩ := h.step_completes
    obtain ⟨t, hrun, ht⟩ := ih u (everyStepKeepsTheInvariant s u h hstep)
    exact ⟨t, by rw [runSteps_succ, hstep, andThen_next, hrun], ht⟩

end Sys2Proof.Machine
end
